-- ==== Sys2Proof/Word.lean ====
section
/-! DEFINITION. The value types of 00_scope.md R7. -/

namespace Sys2Proof

/-- A byte: an unsigned 8-bit value (R7). A character is a byte read as an ASCII code. -/
abbrev Byte := BitVec 8

/-- A sextet: an unsigned 6-bit value (R7). -/
abbrev Sextet := BitVec 6

/-- A word: an unsigned 32-bit value, the width of every register (R7, R10). -/
abbrev Word := BitVec 32

end Sys2Proof
end

