-- ==== Sys2Proof/Config.lean ====
section
/-! DEFINITION. What is fixed for one B64CORE: the two open parameters (00_scope.md R4, R5), the two byte
constants (R6), and the free value of a buffer byte nobody has written (70_reset_and_hazards.md R131). -/

namespace Sys2Proof

/-- `VARIANT` (R4): which characters stand at alphabet positions 62 and 63. -/
inductive Variant where
  | standard
  | urlSafe
deriving DecidableEq, Repr

/-- The two buffers the host owns (10_state.md R26). -/
inductive Buffer where
  | ibuf
  | obuf
deriving DecidableEq, Repr

/-- The open parameters of one B64CORE, the machine's argument (R4, R5). -/
structure Params where
  variant : Variant
  /-- The largest value of `LEN` any command accepts (R5). -/
  maxLen : Nat
deriving DecidableEq, Repr

namespace Config

/-- `PAD`, the character `=` (R6). -/
def pad : Byte := 0x3D#8

/-- `TERM`, the null byte written after the last output byte (R6). -/
def term : Byte := 0x00#8

/-- The parameters `State.reset` takes. DESIGN CHOICE (log 2): the spec leaves both open, and 65535 is the value
R5 suggests for a concrete device. Unsafe only for a claim about `State.reset` itself. -/
def suggested : Params := ⟨.standard, 65535⟩

/-- The byte a buffer holds at an index nobody has written since power-on: a free value (R131, U15; log 3). -/
opaque freeByte : Buffer → Nat → Byte

end Config
end Sys2Proof
end

