-- ==== Sys2Proof/Machine/State.lean ====
section
/-! DEFINITION. The state of B64CORE (10_state.md), the host's transactions (20_memory.md section 4), the reasons
a step can stop, and the state after reset (R30). -/

namespace Sys2Proof.Machine

/-- The host transactions of R46 to R51. `off` is a byte offset from the base of the register block; `i` is a
buffer index. -/
inductive Transaction where
  | writeReg (off : Word) (v : Word)
  | readReg (off : Word)
  | writeIbuf (i : Word) (v : Byte)
  | readIbuf (i : Word)
  | readObuf (i : Word)
  | writeObuf (i : Word) (v : Byte)
  | reset
deriving DecidableEq, Repr

/-- What a read transaction returns to the host (R47, R49, R50). -/
inductive Reply where
  | word (w : Word)
  | byte (b : Byte)
deriving DecidableEq, Repr

/-- A buffer: the bytes written so far, by rising index (R34). An index not listed has been written by nobody. -/
abbrev Memory := List Host.Cell

/-- The machine. `cmd` to `epos` are the six mutable registers (R10 to R16). `params` is the one home of the
constant registers `CFG` and `MAXLEN` (R18, R19; log 2). `ibuf` and `obuf` are the two buffers (R26).
`pending` and `replies` are the model's own (log 1): the transactions the host has lined up, oldest first, and
the values its reads have returned, newest first. -/
structure State where
  cmd : Word
  status : Word
  len : Word
  ocap : Word
  result : Word
  epos : Word
  params : Params
  ibuf : Memory
  obuf : Memory
  pending : List Transaction
  replies : List Reply
deriving DecidableEq, Repr

/-- Faults: none. Nothing traps, hangs or is undefined in the block (00_scope.md section 6, R122); an error is a
completed command with a code in `STATUS` (R117), which is a next state. Safe. -/
inductive Fault where
deriving DecidableEq, Repr

/-- Refusals. -/
inductive Refusal where
  /-- Raised by an arm of `exec` whose instruction has no meaning yet; there is none now. Safe. -/
  | notModelled (mnemonic : String)
  /-- Raised by a register transaction whose offset is not word aligned: the spec gives such an access no meaning
  and asks a model to refuse it (R38, U13; log 5). Safe. -/
  | misalignedRegisterAccess (off : Word)
deriving DecidableEq, Repr

/-- The outcome of a step of this machine. -/
abbrev Result := Host.Outcome State Fault Refusal

/-- The machine right after reset (R30): the six mutable registers zero. The parameters are those of
`Config.suggested` (log 2); no buffer byte has been written (R131; log 3); nothing is pending (log 1). -/
def State.reset : State where
  cmd := 0
  status := 0
  len := 0
  ocap := 0
  result := 0
  epos := 0
  params := Config.suggested
  ibuf := []
  obuf := []
  pending := []
  replies := []

end Sys2Proof.Machine
end

