-- ==== Sys2Proof/Syntax.lean ====
section
/-! DEFINITION. The command set B64CMD-1 (30_encoding.md R54). -/

namespace Sys2Proof

/-- The six commands (R54). A command has no operand in its word (R53, R56): its operands are always the
registers `LEN` and `OCAP` and the buffer `IBUF`. -/
inductive Instr where
  | enclen
  | enc
  | encblk
  | declen
  | dec
  | decblk
deriving DecidableEq, Repr

/-- The command's mnemonic (30_encoding.md R64). -/
def Instr.mnemonic : Instr → String
  | .enclen => "ENCLEN"
  | .enc => "ENC"
  | .encblk => "ENCBLK"
  | .declen => "DECLEN"
  | .dec => "DEC"
  | .decblk => "DECBLK"

/-- All six (R54: the whole set, R124). -/
def Instr.all : List Instr := [.enclen, .enc, .encblk, .declen, .dec, .decblk]

end Sys2Proof
end

