-- ==== Sys2Proof/WellFormed.lean ====
section
/-! DEFINITION. Well-formedness of what the machine is given: commands, parameters, host transactions. -/

namespace Sys2Proof

/-- Every command is well-formed: it has no operand that could break a rule (R53, R56). -/
def Instr.wf : Instr → Bool
  | .enclen | .enc | .encblk | .declen | .dec | .decblk => true

/-- The bounds of the parameter `MAXLEN` (00_scope.md R5). -/
abbrev Params.wf (p : Params) : Prop := 1336 ≤ p.maxLen ∧ p.maxLen ≤ 2 ^ 31 - 1

/-- A register transaction moves one aligned word (20_memory.md R38); a buffer transaction needs nothing. -/
def Machine.Transaction.wf : Machine.Transaction → Bool
  | .writeReg off _ => off.toNat % 4 == 0
  | .readReg off => off.toNat % 4 == 0
  | .writeIbuf _ _ | .readIbuf _ | .readObuf _ | .writeObuf _ _ | .reset => true

end Sys2Proof
end

