-- ==== Sys2Proof/Decode.lean ====
section
/-! DEFINITION. The command word (30_encoding.md R53 to R55): decoder, encoder, and the host's view of the decoder. -/

namespace Sys2Proof

/-- Why a word spells no command (R55). -/
inductive IllegalWord where
  /-- `RSV`, bits 31:3, is not zero. -/
  | reservedBits
  /-- `FN`, bits 1:0, is 0. -/
  | reservedFunction
deriving DecidableEq, Repr

/-- Field `RSV`, bits 31:3 (R53). -/
def rsvField (w : Word) : Nat := w.toNat / 8

/-- Field `DIR`, bit 2 (R53): 0 encode, 1 decode. -/
def dirField (w : Word) : Nat := w.toNat / 4 % 2

/-- Field `FN`, bits 1:0 (R53): 0 reserved, 1 length, 2 driver, 3 block. -/
def fnField (w : Word) : Nat := w.toNat % 4

/-- The decoder (R54, R55): the command a word spells, or why it spells none. -/
def decode (w : Word) : Except IllegalWord Instr :=
  if rsvField w ≠ 0 then .error .reservedBits
  else
    match dirField w, fnField w with
    | _, 0 => .error .reservedFunction
    | 0, 1 => .ok .enclen
    | 0, 2 => .ok .enc
    | 0, _ => .ok .encblk
    | _, 1 => .ok .declen
    | _, 2 => .ok .dec
    | _, _ => .ok .decblk

/-- `DIR` of a command (the table of R54). -/
def dirOf : Instr → Nat
  | .enclen | .enc | .encblk => 0
  | .declen | .dec | .decblk => 1

/-- `FN` of a command (the table of R54). -/
def fnOf : Instr → Nat
  | .enclen | .declen => 1
  | .enc | .dec => 2
  | .encblk | .decblk => 3

/-- The encoder: `RSV = 0`, then `DIR`, then `FN` (R53, R54). -/
def encode (i : Instr) : Word := BitVec.ofNat 32 (dirOf i * 4 + fnOf i)

/-- The command an opcode-table word of `nbits` bits spells; bits above `nbits` are zero. A command word is one
whole 32-bit register value with no byte order of its own (R39, R53; log 7). -/
def decodeTableWord (nbits w : Nat) : Option Instr :=
  let v := w % 2 ^ nbits
  if v < 2 ^ 32 then (decode (BitVec.ofNat 32 v)).toOption else none

end Sys2Proof
end

