-- ==== Sys2Proof/Machine/Gearbox.lean ====
section
/-! DEFINITION. The gearbox: three bytes as four sextets and back (30_encoding.md R57 to R60). -/

namespace Sys2Proof.Machine

/-- `G34` (R58), in the document's formulas. Each right-hand side is at most 63, so taking six bits loses nothing. -/
def g34 (b0 b1 b2 : Byte) : Sextet × Sextet × Sextet × Sextet :=
  ((b0 >>> 2).setWidth 6,
   (((b0 &&& 0x03#8) <<< 4) ||| (b1 >>> 4)).setWidth 6,
   (((b1 &&& 0x0F#8) <<< 2) ||| (b2 >>> 6)).setWidth 6,
   (b2 &&& 0x3F#8).setWidth 6)

/-- A sextet in a space wide enough that `<<` by 6 loses no bit (R7, R59). -/
def wide (v : Sextet) : BitVec 12 := v.setWidth 12

/-- `trunc8` (R7). -/
def trunc8 (v : BitVec 12) : Byte := v.setWidth 8

/-- `G43` (R59), in the document's formulas, each reduced by `trunc8`. -/
def g43 (v0 v1 v2 v3 : Sextet) : Byte × Byte × Byte :=
  (trunc8 ((wide v0 <<< 2) ||| (wide v1 >>> 4)),
   trunc8 ((wide v1 <<< 4) ||| (wide v2 >>> 2)),
   trunc8 ((wide v2 <<< 6) ||| wide v3))

end Sys2Proof.Machine
end

