-- ==== Sys2Proof/Machine/Flags.lean ====
section
/-! DEFINITION. `STATUS`, the only flags of the machine (10_state.md R12, R29), and the error codes
(60_exceptions.md R111). -/

namespace Sys2Proof.Machine

/-- The six outcomes of a command (R111). -/
inductive ErrCode where
  | ok
  | cmd
  | length
  | char
  | pad
  | bufsz
deriving DecidableEq, Repr

/-- The code written to `STATUS.ERR` (R111). -/
def errNumber : ErrCode → Nat
  | .ok => 0
  | .cmd => 1
  | .length => 2
  | .char => 3
  | .pad => 4
  | .bufsz => 5

/-- The whole `STATUS` word after a command: `DONE = 1` and the code in bits 7:4 (R12, R116, R117). -/
def statusWord (e : ErrCode) : Word := 1#32 ||| (BitVec.ofNat 32 (errNumber e) <<< 4)

/-- `STATUS.DONE`, bit 0 (R12). -/
def doneField (status : Word) : Bool := status.getLsbD 0

/-- `STATUS.ERR`, bits 7:4 (R12). -/
def errField (status : Word) : Nat := status.toNat / 16 % 16

/-- The outcome a `STATUS.ERR` value names; 6 to 15 are never produced (R12, R111). -/
def errOfNumber : Nat → Option ErrCode
  | 0 => some .ok
  | 1 => some .cmd
  | 2 => some .length
  | 3 => some .char
  | 4 => some .pad
  | 5 => some .bufsz
  | _ => none

end Sys2Proof.Machine
end

