-- ==== Sys2Proof/Machine/Ops.lean ====
section
/-! DEFINITION. The named operations over the buffers and the registers: byte access to a buffer (20_memory.md
R38), the two ways a command ends (60_exceptions.md R116, R117), and the register writes of the transactions. -/

namespace Sys2Proof.Machine

/-- The byte written at index `a`, or `none` when nobody has written there. -/
def Memory.lookup : Memory → Nat → Option Byte
  | [], _ => none
  | (k, b) :: m, a => if k = a then some b else Memory.lookup m a

/-- What the buffer `which` holds at index `a`: the byte written there, or else the free byte of that index
(R131; log 3). This is `MemRead` (R8). -/
def Memory.byteAt (which : Buffer) (m : Memory) (a : Nat) : Byte :=
  (Memory.lookup m a).getD (Config.freeByte which a)

/-- Store one byte at index `a`, keeping the indices rising. This is `MemWrite` (R8). -/
def Memory.write : Memory → Nat → Byte → Memory
  | [], a, v => [(a, v)]
  | (k, b) :: m, a, v =>
    if a < k then (a, v) :: (k, b) :: m
    else if a = k then (a, v) :: m
    else (k, b) :: Memory.write m a v

/-- Store `bytes` at `a`, `a + 1`, and so on, in ascending order (R90, R110). -/
def Memory.writeAll : Memory → Nat → List Byte → Memory
  | m, _, [] => m
  | m, a, b :: bytes => Memory.writeAll (Memory.write m a b) (a + 1) bytes

/-- The canonical form of a buffer: the listed indices rise strictly and are indices of the space (R34). -/
abbrev Memory.wf (m : Memory) : Prop :=
  m.Pairwise (fun c d => c.1 < d.1) ∧ ∀ c ∈ m, c.1 < 2 ^ 32

/-- `MemRead(IBUF + a, 1)` (R8). -/
def State.ibufAt (s : State) (a : Nat) : Byte := s.ibuf.byteAt .ibuf a

/-- What the host would read at `OBUF[a]` (R50); the core itself never reads `OBUF` (R26). -/
def State.obufAt (s : State) (a : Nat) : Byte := s.obuf.byteAt .obuf a

/-- `MemWrite` of `bytes` to `OBUF[0], OBUF[1], …` (R8, R36). -/
def State.storeOut (s : State) (bytes : List Byte) : State :=
  { s with obuf := s.obuf.writeAll 0 bytes }

/-- `complete(r)`: a command ends successfully (R116). -/
def State.complete (s : State) (r : Nat) : State :=
  { s with result := BitVec.ofNat 32 r, epos := 0, status := statusWord .ok }

/-- `raise ERR_X(pos)`: a command ends with an error (R117). It is the whole of what an error does: no state is
saved, no mode changes, control goes nowhere (R122), and so nothing returns from it (R123). -/
def State.raise (s : State) (e : ErrCode) (pos : Nat) : State :=
  { s with result := 0, epos := BitVec.ofNat 32 pos, status := statusWord e }

/-- The end of a successful transcoding command: the output bytes, then `TERM`, then `complete` (R36, R87, R107). -/
def State.deliver (s : State) (bytes : List Byte) (r : Nat) : State :=
  (s.storeOut (bytes ++ [Config.term])).complete r

/-- An illegal word ends with `ERR_CMD`, whatever makes it illegal (R55, R112). -/
def State.illegalWord (s : State) : State := s.raise .cmd 0

/-- The `CMD` register takes the word written, legal or not (R11). -/
def State.storeCmd (s : State) (w : Word) : State := { s with cmd := w }

/-- A host write of `LEN` (R13). -/
def State.storeLen (s : State) (w : Word) : State := { s with len := w }

/-- A host write of `OCAP` (R14). -/
def State.storeOcap (s : State) (w : Word) : State := { s with ocap := w }

/-- `IBUF[i] <- v` by the host (R48). -/
def State.hostWriteIbuf (s : State) (i : Nat) (v : Byte) : State := { s with ibuf := s.ibuf.write i v }

/-- `OBUF[i] <- v` by the host (R50). -/
def State.hostWriteObuf (s : State) (i : Nat) (v : Byte) : State := { s with obuf := s.obuf.write i v }

/-- A read transaction returns `r` and changes nothing else (R47, R49, R50; log 1). -/
def State.reply (s : State) (r : Reply) : State := { s with replies := r :: s.replies }

/-- The transactions still to come (log 1). -/
def State.setPending (s : State) (ts : List Transaction) : State := { s with pending := ts }

/-- `Reset` (R51, R129): the six mutable registers become zero; the parameters, the tables and both buffers stay
(R30, R131, R132), and so does what the host has lined up and what it has been told (log 1). -/
def State.resetRegisters (s : State) : State :=
  { s with cmd := 0, status := 0, len := 0, ocap := 0, result := 0, epos := 0 }

end Sys2Proof.Machine
end

