-- ==== Sys2Proof/Machine/Operands.lean ====
section
/-! DEFINITION. Where a command's operands come from (30_encoding.md R56) and how the host sees the registers
(10_state.md R10 to R19). -/

namespace Sys2Proof.Machine

/-- The length `n = LEN`, the whole 32-bit value as a natural number (R56). -/
abbrev State.lenOperand (s : State) : Nat := s.len.toNat

/-- The capacity `cap = OCAP`, likewise (R56). -/
abbrev State.capOperand (s : State) : Nat := s.ocap.toNat

/-- The input `IBUF[0 .. n-1]`, by ascending index (R56, R35). -/
def State.input (s : State) (n : Nat) : List Byte := (List.range n).map s.ibufAt

/-- `CFG`: the code of `VARIANT` in bit 0, zeros above (R18, R4). -/
def State.cfg (s : State) : Word :=
  match s.params.variant with
  | .standard => 0
  | .urlSafe => 1

/-- `MAXLEN`, read as a register (R19). -/
def State.maxlenReg (s : State) : Word := BitVec.ofNat 32 s.params.maxLen

/-- The value of the register at a byte offset; 0 for a reserved offset (R10, R17, R47). -/
def State.regAt (s : State) (off : Word) : Word :=
  match off.toNat with
  | 0x00 => s.cmd
  | 0x04 => s.status
  | 0x08 => s.len
  | 0x0C => s.ocap
  | 0x10 => s.result
  | 0x14 => s.epos
  | 0x18 => s.cfg
  | 0x1C => s.maxlenReg
  | _ => 0

end Sys2Proof.Machine
end

