-- ==== Sys2Proof/Machine/Length.lean ====
section
/-! DEFINITION. The length family: ENCLEN and DECLEN (40_length.md). -/

namespace Sys2Proof.Machine

/-- `enclen(n) = 4 * ((n + 2) / 3)` (R71). -/
def enclen (n : Nat) : Nat := 4 * ((n + 2) / 3)

/-- `padcount` from the last two characters, `cy` before `cz` (R74). The malformed pattern, `cy` a pad and `cz`
not, is rejected by the commands before they count. -/
def padCount (cy cz : Byte) : Nat :=
  if cz = Config.pad then (if cy = Config.pad then 2 else 1) else 0

/-- `declen(T, L) = 3 * (L / 4) - padcount(T, L)` for the text in `IBUF[0 .. L-1]` (R74). -/
def State.declen (s : State) (L : Nat) : Nat :=
  3 * (L / 4) - padCount (s.ibufAt (L - 2)) (s.ibufAt (L - 1))

/-- ENCLEN (R73). -/
def execEnclen (s : State) : Result :=
  if s.params.maxLen < s.lenOperand then .next (s.raise .length 0)
  else .next (s.complete (enclen s.lenOperand))

/-- DECLEN (R75, R78): it looks at `LEN` and the last two characters only. -/
def execDeclen (s : State) : Result :=
  let L := s.lenOperand
  if s.params.maxLen < L then .next (s.raise .length 0)
  else if L = 0 ∨ L % 4 ≠ 0 then .next (s.raise .length 0)
  else if s.ibufAt (L - 2) = Config.pad ∧ s.ibufAt (L - 1) ≠ Config.pad then .next (s.raise .pad (L - 2))
  else .next (s.complete (s.declen L))

end Sys2Proof.Machine
end

