-- ==== Sys2Proof/Machine/Tables.lean ====
section
/-! DEFINITION. The lookup tables `ALPHA`, `REV` and `VALID` (10_state.md R20 to R25), functions of `VARIANT`. -/

namespace Sys2Proof.Machine

/-- The character at alphabet position 62 (R20, R21): `+` or `-`. -/
def symbol62 : Variant → Byte
  | .standard => 0x2B#8
  | .urlSafe => 0x2D#8

/-- The character at alphabet position 63 (R20, R21): `/` or `_`. -/
def symbol63 : Variant → Byte
  | .standard => 0x2F#8
  | .urlSafe => 0x5F#8

/-- The Alphabet Table `ALPHA` (R20, R21). -/
def alpha (v : Variant) (s : Sextet) : Byte :=
  let i := s.toNat
  if i ≤ 25 then BitVec.ofNat 8 (0x41 + i)
  else if i ≤ 51 then BitVec.ofNat 8 (0x61 + (i - 26))
  else if i ≤ 61 then BitVec.ofNat 8 (0x30 + (i - 52))
  else if i = 62 then symbol62 v
  else symbol63 v

/-- The alphabet index of a byte, or `none` outside the alphabet: one entry of `REV` with its `VALID` bit
(R22, R24). -/
def alphaIndex (v : Variant) (c : Byte) : Option Sextet :=
  let n := c.toNat
  if 0x41 ≤ n ∧ n ≤ 0x5A then some (BitVec.ofNat 6 (n - 0x41))
  else if 0x61 ≤ n ∧ n ≤ 0x7A then some (BitVec.ofNat 6 (26 + (n - 0x61)))
  else if 0x30 ≤ n ∧ n ≤ 0x39 then some (BitVec.ofNat 6 (52 + (n - 0x30)))
  else if c = symbol62 v then some 62#6
  else if c = symbol63 v then some 63#6
  else none

/-- The Reverse Table `REV`: the index, or 0 outside the alphabet (R22). -/
def rev (v : Variant) (c : Byte) : Sextet := (alphaIndex v c).getD 0

/-- The membership predicate `VALID` (R24). -/
def valid (v : Variant) (c : Byte) : Bool := (alphaIndex v c).isSome

end Sys2Proof.Machine
end

