-- ==== Sys2Proof/Machine/DecodeText.lean ====
section
/-! DEFINITION. The decode family: the validation scan, DECBLK and DEC (42_decode.md). -/

namespace Sys2Proof.Machine

/-- The class of a character of a text (R93). -/
inductive CharClass where
  | padOk
  | badPad
  | dataOk
  | badChar
deriving DecidableEq, Repr

/-- What `scan` finds (R93). -/
inductive Scan where
  | ok
  | badPad (i : Nat)
  | badChar (i : Nat)
deriving DecidableEq, Repr

/-- `class(T, L, i)` (R93) for the character `c` at `i`, given the characters after it: `i = L - 1` when none
follow, `i = L - 2` when exactly one does. The test for `=` comes before the table lookup. -/
def classOf (v : Variant) (c : Byte) (after : List Byte) : CharClass :=
  if c = Config.pad then
    match after with
    | [] => .padOk
    | [d] => if d = Config.pad then .padOk else .badPad
    | _ => .badPad
  else if valid v c then .dataOk
  else .badChar

/-- `scan` from index `i` on (R93): the lowest index whose class is bad decides. -/
def scanFrom (v : Variant) : Nat → List Byte → Scan
  | _, [] => .ok
  | i, c :: rest =>
    match classOf v c rest with
    | .badPad => .badPad i
    | .badChar => .badChar i
    | .padOk | .dataOk => scanFrom v (i + 1) rest

/-- `scan(T, L)` (R93). -/
def scan (v : Variant) (T : List Byte) : Scan := scanFrom v 0 T

/-- `decfull`, one full quantum (R99). -/
def decFull (v : Variant) (c0 c1 c2 c3 : Byte) : List Byte :=
  match g43 (rev v c0) (rev v c1) (rev v c2) (rev v c3) with
  | (b0, b1, b2) => [b0, b1, b2]

/-- `decblk`, the last quantum (R100): whether a byte is emitted is decided by comparing the character with `=`,
never by a looked-up value (R101). -/
def decBlk (v : Variant) (c0 c1 c2 c3 : Byte) : List Byte :=
  match g43 (rev v c0) (rev v c1) (rev v c2) (rev v c3) with
  | (b0, b1, b2) =>
    b0 :: ((if c2 ≠ Config.pad then [b1] else []) ++ (if c3 ≠ Config.pad then [b2] else []))

/-- `decode`, the driver (R105): full quanta while more than 4 characters remain, the last to `decblk`. The
commands give it a text whose length is a multiple of 4. -/
def decText (v : Variant) : List Byte → List Byte
  | c0 :: c1 :: c2 :: c3 :: rest =>
    if rest.isEmpty then decBlk v c0 c1 c2 c3 else decFull v c0 c1 c2 c3 ++ decText v rest
  | _ => []

/-- DECBLK (R103). -/
def execDecblk (s : State) : Result :=
  let L := s.lenOperand
  if s.params.maxLen < L then .next (s.raise .length 0)
  else if L ≠ 4 then .next (s.raise .length 0)
  else
    match scan s.params.variant (s.input 4) with
    | .badChar i => .next (s.raise .char i)
    | .badPad i => .next (s.raise .pad i)
    | .ok =>
      let n := 3 - padCount (s.ibufAt 2) (s.ibufAt 3)
      if s.capOperand < n + 1 then .next (s.raise .bufsz 0)
      else .next (s.deliver (decBlk s.params.variant (s.ibufAt 0) (s.ibufAt 1) (s.ibufAt 2) (s.ibufAt 3)) n)

/-- DEC (R108; the empty text R106). -/
def execDec (s : State) : Result :=
  let L := s.lenOperand
  if s.params.maxLen < L then .next (s.raise .length 0)
  else if L % 4 ≠ 0 then .next (s.raise .length 0)
  else if L = 0 then
    if s.capOperand < 1 then .next (s.raise .bufsz 0) else .next (s.deliver [] 0)
  else
    match scan s.params.variant (s.input L) with
    | .badChar i => .next (s.raise .char i)
    | .badPad i => .next (s.raise .pad i)
    | .ok =>
      if s.capOperand < s.declen L + 1 then .next (s.raise .bufsz 0)
      else .next (s.deliver (decText s.params.variant (s.input L)) (s.declen L))

end Sys2Proof.Machine
end

