-- ==== Sys2Proof/Machine/Encode.lean ====
section
/-! DEFINITION. The encode family: ENCBLK and ENC (41_encode.md). -/

namespace Sys2Proof.Machine

/-- `encfull`, one full block (R80). -/
def encFull (v : Variant) (b0 b1 b2 : Byte) : List Byte :=
  match g34 b0 b1 b2 with
  | (s0, s1, s2, s3) => [alpha v s0, alpha v s1, alpha v s2, alpha v s3]

/-- `encblk`, the final block of 1 to 3 bytes; an absent byte is 0 (R81, R83). No other number of bytes is an
input of it (R82); the commands never give it one. -/
def encBlk (v : Variant) : List Byte → List Byte
  | [b0] =>
    match g34 b0 0 0 with
    | (s0, s1, _, _) => [alpha v s0, alpha v s1, Config.pad, Config.pad]
  | [b0, b1] =>
    match g34 b0 b1 0 with
    | (s0, s1, s2, _) => [alpha v s0, alpha v s1, alpha v s2, Config.pad]
  | [b0, b1, b2] =>
    match g34 b0 b1 b2 with
    | (s0, s1, s2, s3) => [alpha v s0, alpha v s1, alpha v s2, alpha v s3]
  | _ => []

/-- `encode`, the driver (R85, R86): full blocks while more than 3 bytes remain, the rest to `encblk`, nothing for
no bytes. The list is what remains at `ip`, the text so far is what precedes (log 10). -/
def encText (v : Variant) : List Byte → List Byte
  | [] => []
  | b0 :: b1 :: b2 :: rest =>
    if rest.isEmpty then encBlk v [b0, b1, b2] else encFull v b0 b1 b2 ++ encText v rest
  | r => encBlk v r

/-- ENCBLK (R84). -/
def execEncblk (s : State) : Result :=
  let k := s.lenOperand
  if s.params.maxLen < k then .next (s.raise .length 0)
  else if k < 1 ∨ 3 < k then .next (s.raise .length 0)
  else if s.capOperand < 5 then .next (s.raise .bufsz 0)
  else .next (s.deliver (encBlk s.params.variant (s.input k)) 4)

/-- ENC (R88). -/
def execEnc (s : State) : Result :=
  let n := s.lenOperand
  if s.params.maxLen < n then .next (s.raise .length 0)
  else if s.capOperand < enclen n + 1 then .next (s.raise .bufsz 0)
  else .next (s.deliver (encText s.params.variant (s.input n)) (enclen n))

end Sys2Proof.Machine
end

