-- ==== Sys2Proof/Machine/Dispatch.lean ====
section
/-! DEFINITION. exec: one arm per command (30_encoding.md R54). -/

namespace Sys2Proof.Machine

def exec (i : Instr) (s : State) : Host.Outcome State Fault Refusal :=
  match i with
  | .enclen => Sys2Proof.Machine.execEnclen s
  | .enc => Sys2Proof.Machine.execEnc s
  | .encblk => Sys2Proof.Machine.execEncblk s
  | .declen => Sys2Proof.Machine.execDeclen s
  | .dec => Sys2Proof.Machine.execDec s
  | .decblk => Sys2Proof.Machine.execDecblk s

end Sys2Proof.Machine
end

