-- ==== Sys2Proof/Machine/Transactions.lean ====
section
/-! DEFINITION. The host's transactions (20_memory.md section 4, R46 to R51), all but the command a `CMD` write
starts, which `step` hands to `exec`. -/

namespace Sys2Proof.Machine

/-- What accepting the oldest pending transaction comes to: a command word to run, or an outcome already. -/
inductive Accepted where
  | command (w : Word) (s : State)
  | settled (o : Result)

/-- A register access is one aligned word (R38). -/
def registerAligned (off : Word) : Bool := off.toNat % 4 == 0

/-- `WriteReg` to a register other than `CMD` (R46): `LEN` and `OCAP` take the value; every other offset,
read-only or reserved, ignores it (R17). -/
def writeRegister (off v : Word) (s : State) : State :=
  match off.toNat with
  | 0x08 => s.storeLen v
  | 0x0C => s.storeOcap v
  | _ => s

/-- One transaction on the state as it stands. `WriteReg(0x00, w)` stores `w` in `CMD` first (R46, R11). A register
access that is not an aligned word has no meaning and is refused (R38, U13; log 5). -/
def receive (t : Transaction) (s : State) : Accepted :=
  match t with
  | .writeReg off v =>
    if registerAligned off then
      (if off.toNat = 0x00 then .command v (s.storeCmd v) else .settled (.next (writeRegister off v s)))
    else .settled (.refused (.misalignedRegisterAccess off))
  | .readReg off =>
    if registerAligned off then .settled (.next (s.reply (.word (s.regAt off))))
    else .settled (.refused (.misalignedRegisterAccess off))
  | .writeIbuf i v => .settled (.next (s.hostWriteIbuf i.toNat v))
  | .readIbuf i => .settled (.next (s.reply (.byte (s.ibufAt i.toNat))))
  | .readObuf i => .settled (.next (s.reply (.byte (s.obufAt i.toNat))))
  | .writeObuf i v => .settled (.next (s.hostWriteObuf i.toNat v))
  | .reset => .settled (.next s.resetRegisters)

/-- Take the oldest pending transaction (R42). With none pending the core does nothing (R11; log 4). -/
def accept (s : State) : Accepted :=
  match s.pending with
  | [] => .settled (.next s)
  | t :: rest => receive t (s.setPending rest)

/-- Line up the `CMD` write of a command word before everything else that is pending (log 7). -/
def queueCommand (s : State) (w : Word) : State := s.setPending (.writeReg 0 w :: s.pending)

/-- The command word of a table word: bits above `nbits` are zero (log 7). -/
def tableWord (nbits w : Nat) : Word := BitVec.ofNat 32 (w % 2 ^ nbits)

end Sys2Proof.Machine
end

