-- ==== Sys2Proof/Machine/Step.lean ====
section
/-! DEFINITION. step: one host transaction (20_memory.md R42), with the whole command a `CMD` write starts (R43). -/

namespace Sys2Proof.Machine

/-- One step: the oldest pending transaction, to completion. A `CMD` write runs the command its word spells, or
ends with `ERR_CMD` (R46, R55). -/
def step (s : State) : Host.Outcome State Fault Refusal :=
  match accept s with
  | .settled o => o
  | .command w s' =>
    match decode w with
    | .ok i => exec i s'
    | .error _ => .next s'.illegalWord

/-- `s` with the given command word written to `CMD` by the very next step (log 7). -/
def State.withFetchWord (s : State) (nbits w : Nat) : State := queueCommand s (tableWord nbits w)

end Sys2Proof.Machine
end

