-- ==== Sys2Proof/Machine/Calls.lean ====
section
/-! DEFINITION. The four caller-visible functions of the document as sequences of host transactions
(30_encoding.md R65 to R70). They are the host's side of the interface, not part of the core (log 12). -/

namespace Sys2Proof.Machine

/-- `IBUF[0 .. n-1] <- bytes`, one `WriteIBUF` per byte, ascending (R64, R67). -/
def loadIbuf (bytes : List Byte) : List Transaction :=
  bytes.zipIdx.map fun p => .writeIbuf (BitVec.ofNat 32 p.2) p.1

/-- `LEN <- n` (R64). -/
def setLength (n : Nat) : Transaction := .writeReg 0x08 (BitVec.ofNat 32 n)

/-- `OCAP <- n` (R64). -/
def setCapacity (n : Nat) : Transaction := .writeReg 0x0C (BitVec.ofNat 32 n)

/-- The line `<MNEMONIC>`: a write of the command's word to `CMD` (R64). -/
def issue (i : Instr) : Transaction := .writeReg 0x00 (encode i)

/-- `read STATUS` (R64). -/
def readStatus : Transaction := .readReg 0x04

/-- `read RESULT` (R64). -/
def readResult : Transaction := .readReg 0x10

/-- `read OBUF[0 .. r]` (R64). -/
def readOutput (r : Nat) : List Transaction := (List.range (r + 1)).map fun a => .readObuf (BitVec.ofNat 32 a)

/-- `EncodeLength(n)` up to its `STATUS` read (R66). -/
def callEncodeLength (n : Nat) : List Transaction := [setLength n, issue .enclen, readStatus]

/-- `Encode(outBuffer, inBuffer, n)` with an `outBuffer` of `cap` bytes, up to its `STATUS` read (R67). -/
def callEncode (inBuffer : List Byte) (cap : Nat) : List Transaction :=
  loadIbuf inBuffer ++ [setLength inBuffer.length, setCapacity cap, issue .enc, readStatus]

/-- `DecodeLength(inBuffer, n)` up to its `STATUS` read (R68). -/
def callDecodeLength (inBuffer : List Byte) : List Transaction :=
  loadIbuf inBuffer ++ [setLength inBuffer.length, issue .declen, readStatus]

/-- `Decode(outBuffer, inBuffer, n)` with an `outBuffer` of `cap` bytes, up to its `STATUS` read (R69). -/
def callDecode (inBuffer : List Byte) (cap : Nat) : List Transaction :=
  loadIbuf inBuffer ++ [setLength inBuffer.length, setCapacity cap, issue .dec, readStatus]

/-- The document's return value `status` (R65): the outcome `STATUS.ERR` names. -/
def returnedStatus (s : State) : Option ErrCode := errOfNumber (errField s.status)

/-- The document's return value `size` (R65, R66, R68): `RESULT`, when the call succeeded. -/
def returnedSize (s : State) : Option Nat :=
  if returnedStatus s = some .ok then some s.result.toNat else none

/-- `outBuffer` after a successful `Encode` or `Decode` (R67, R69): `OBUF[0 .. RESULT]`, the last byte being the
terminator. -/
def returnedBuffer (s : State) : Option (List Byte) :=
  if returnedStatus s = some .ok then some ((List.range (s.result.toNat + 1)).map s.obufAt) else none

end Sys2Proof.Machine
end

