-- ==== Sys2Proof/Safety.lean ====
section
/-! DEFINITION. The terms claims are made in: the rules' own words about texts and lengths, said by index and in
natural numbers (not through the machine's list functions), and the invariant of the machine. -/

namespace Sys2Proof.Machine

/-- The character is in the alphabet of the variant (10_state.md R24). -/
abbrev inAlphabet (v : Variant) (c : Byte) : Prop := ∃ x : Sextet, alpha v x = c

/-- `bad_pad` (42_decode.md R93): an `=` neither in the last place nor in the last but one before another `=`. -/
abbrev badPadAt (T : Nat → Byte) (L j : Nat) : Prop :=
  T j = Config.pad ∧ ¬ (j + 1 = L ∨ (j + 2 = L ∧ T (L - 1) = Config.pad))

/-- `bad_char` (R93): neither `=` nor in the alphabet. -/
abbrev badCharAt (v : Variant) (T : Nat → Byte) (j : Nat) : Prop := T j ≠ Config.pad ∧ ¬ inAlphabet v (T j)

/-- Index `j` is the lowest of the text whose class is bad (R93). -/
abbrev firstOffender (v : Variant) (T : Nat → Byte) (L j : Nat) : Prop :=
  j < L ∧ (badPadAt T L j ∨ badCharAt v T j) ∧ ∀ k < j, ¬ badPadAt T L k ∧ ¬ badCharAt v T k

/-- Every character of the text is acceptable where it stands (R94). -/
abbrev allAcceptable (v : Variant) (T : Nat → Byte) (L : Nat) : Prop :=
  ∀ j < L, ¬ badPadAt T L j ∧ ¬ badCharAt v T j

/-- `padcount(T, L)` (40_length.md R74). -/
def textPads (T : Nat → Byte) (L : Nat) : Nat :=
  if T (L - 2) = Config.pad ∧ T (L - 1) = Config.pad then 2 else if T (L - 1) = Config.pad then 1 else 0

/-- `declen(T, L)` (R74). -/
def textBytes (T : Nat → Byte) (L : Nat) : Nat := 3 * (L / 4) - textPads T L

/-- Byte `j` of the input of length `n`, an absent one being 0 (41_encode.md R81). -/
def byteOrZero (B : Nat → Byte) (n j : Nat) : Nat := if j < n then (B j).toNat else 0

/-- The window of block `q` of an input, as a number (30_encoding.md R57). -/
def encWindow (B : Nat → Byte) (n q : Nat) : Nat :=
  byteOrZero B n (3 * q) * 2 ^ 16 + byteOrZero B n (3 * q + 1) * 2 ^ 8 + byteOrZero B n (3 * q + 2)

/-- Character `k` of the text of an input of `n` bytes, in closed form (R57, R81, R85): sextet `k mod 4` of the
window of block `k / 4`, or `=` where the byte that character would finish is absent. -/
def encCharAt (v : Variant) (B : Nat → Byte) (n k : Nat) : Byte :=
  if n < 3 * (k / 4) + k % 4 then Config.pad
  else alpha v (BitVec.ofNat 6 (encWindow B n (k / 4) / 2 ^ (18 - 6 * (k % 4))))

/-- The window of quantum `q` of a text, as a number (R57, R98). -/
def decWindow (v : Variant) (T : Nat → Byte) (q : Nat) : Nat :=
  (rev v (T (4 * q))).toNat * 2 ^ 18 + (rev v (T (4 * q + 1))).toNat * 2 ^ 12 +
    (rev v (T (4 * q + 2))).toNat * 2 ^ 6 + (rev v (T (4 * q + 3))).toNat

/-- Byte `k` of the decoded text, in closed form (R57, R105): byte `k mod 3` of the window of quantum `k / 3`. -/
def decByteAt (v : Variant) (T : Nat → Byte) (k : Nat) : Byte :=
  BitVec.ofNat 8 (decWindow v T (k / 3) / 2 ^ (16 - 8 * (k % 3)))

/-- The length a command does not accept (60_exceptions.md R113). -/
def lengthBad (i : Instr) (n maxLen : Nat) : Prop :=
  maxLen < n ∨
    match i with
    | .enclen | .enc => False
    | .encblk => n ≠ 1 ∧ n ≠ 2 ∧ n ≠ 3
    | .declen => n = 0 ∨ n % 4 ≠ 0
    | .dec => n % 4 ≠ 0
    | .decblk => n ≠ 4

/-- The index a command reports with `ERR_CHAR` or `ERR_PAD` (R114). -/
def offenderOf (i : Instr) (v : Variant) (T : Nat → Byte) (L j : Nat) : Prop :=
  match i with
  | .dec | .decblk => firstOffender v T L j
  | .declen => j + 2 = L ∧ T j = Config.pad ∧ T (L - 1) ≠ Config.pad
  | .enclen | .enc | .encblk => False

/-- The declared capacity is too small (R115). -/
def capacityShort (i : Instr) (T : Nat → Byte) (n cap : Nat) : Prop :=
  match i with
  | .enc => cap < 4 * ((n + 2) / 3) + 1
  | .encblk => cap < 4 + 1
  | .dec | .decblk => cap < textBytes T n + 1
  | .enclen | .declen => False

/-- Which command can end with which code (R120). -/
def mayEnd : Instr → ErrCode → Bool
  | _, .ok => true
  | _, .cmd => false
  | _, .length => true
  | .dec, .char | .decblk, .char => true
  | _, .char => false
  | .declen, .pad | .dec, .pad | .decblk, .pad => true
  | _, .pad => false
  | .enclen, .bufsz | .declen, .bufsz => false
  | _, .bufsz => true

/-- The commands that write `OBUF` (20_memory.md R36). -/
def transcodes : Instr → Bool
  | .enc | .encblk | .dec | .decblk => true
  | .enclen | .declen => false

/-- The invariant of the machine. It holds after reset and every step keeps it. -/
structure State.Inv (s : State) : Prop where
  /-- The parameter `MAXLEN` is within its bounds (00_scope.md R5). -/
  params : s.params.wf
  /-- The buffers keep their canonical form. -/
  ibuf : s.ibuf.wf
  obuf : s.obuf.wf
  /-- `STATUS` reads as one of seven words, its reserved bits zero (10_state.md R12). -/
  statusWords : s.status = 0 ∨ ∃ e, s.status = statusWord e
  /-- `DONE = 0` only before the first command: `CMD`, `RESULT` and `EPOS` are still zero (R11, R12). -/
  fresh : s.status = 0 → s.cmd = 0 ∧ s.result = 0 ∧ s.epos = 0
  /-- `ERR_CMD` is recorded exactly when `CMD` holds an illegal word (60_exceptions.md R112). -/
  illegal : s.status ≠ 0 → (s.status = statusWord .cmd ↔ ∀ i, decode s.cmd ≠ .ok i)
  /-- The recorded outcome is one the command in `CMD` can end with (R120). -/
  outcome : s.status ≠ 0 → ∀ i, decode s.cmd = .ok i → ∃ e, mayEnd i e = true ∧ s.status = statusWord e
  /-- `RESULT` is zero unless the last command succeeded (R15, R117). -/
  failed : s.status ≠ statusWord .ok → s.result = 0
  /-- `RESULT` is bounded, and so never exceeds `2^32 - 2` (R15, 40_length.md R72). -/
  bounded : s.result.toNat ≤ enclen s.params.maxLen
  /-- `EPOS` is zero unless a character or a pad was reported, and is then an index of an accepted text (R16). -/
  position : s.epos ≠ 0 →
    (s.status = statusWord .char ∨ s.status = statusWord .pad) ∧ s.epos.toNat < s.params.maxLen

end Sys2Proof.Machine
end

