-- ==== Sys2Proof/Certificates/Slice0/Obligations.lean ====
section
/-! DEFINITION. The statements about the machine. `Sys2Proof/Safety.lean` says the rules' words about texts by
index and in natural numbers; the statements compare the machine with those. -/

open Sys2Proof Sys2Proof.Machine

/-! ## The command word -/

/-- Words written out from the table of 30_encoding.md R54, and three words R55 calls illegal. -/
def Obligations.SampleWordsDecodeAsTheTableSays : Prop :=
  decode 0x00000001#32 = .ok .enclen ∧ decode 0x00000002#32 = .ok .enc ∧ decode 0x00000003#32 = .ok .encblk ∧
  decode 0x00000005#32 = .ok .declen ∧ decode 0x00000006#32 = .ok .dec ∧ decode 0x00000007#32 = .ok .decblk ∧
  decode 0x00000000#32 = .error .reservedFunction ∧ decode 0x00000004#32 = .error .reservedFunction ∧
  decode 0x0000000E#32 = .error .reservedBits ∧ decode 0x80000002#32 = .error .reservedBits

/-- R54: over all words, which word spells which command, and that a word spells a command exactly when
`w[31:3] = 0` and `w[1:0] != 0`. Decoding what the encoder gives is the command again, and no other word does. -/
def Obligations.WordSpellsCommandExactlyAsTabled : Prop :=
  (∀ (w : Word) (i : Instr), decode w = .ok i ↔ encode i = w) ∧
  (∀ w : Word, (∃ i, decode w = .ok i) ↔ w.extractLsb 31 3 = 0 ∧ w.extractLsb 1 0 ≠ 0) ∧
  encode .enclen = 0x00000001#32 ∧ encode .enc = 0x00000002#32 ∧ encode .encblk = 0x00000003#32 ∧
  encode .declen = 0x00000005#32 ∧ encode .dec = 0x00000006#32 ∧ encode .decblk = 0x00000007#32

/-! ## The step and the host's transactions -/

/-- When the oldest pending transaction writes a word that decodes to a command, the step is `exec` of that command
on the state with the word in `CMD` and the transaction taken off the queue (R46, R43). -/
def Obligations.StepRunsTheDecodedCommand : Prop :=
  ∀ (s : State) (w : Word) (i : Instr) (rest : List Transaction),
    s.pending = .writeReg 0x00 w :: rest → i.wf = true → decode w = .ok i →
      step s = exec i { s with pending := rest, cmd := w }

/-- 60_exceptions.md R112: an illegal word is stored and ends with `ERR_CMD`, decided from the word alone; nothing
else changes (R55, R117). -/
def Obligations.IllegalWordEndsWithErrCmd : Prop :=
  ∀ (s : State) (w : Word) (rest : List Transaction),
    s.pending = .writeReg 0x00 w :: rest → (w.extractLsb 31 3 ≠ 0 ∨ w.extractLsb 1 0 = 0) →
      step s = .next { s with pending := rest, cmd := w, status := 0x11, result := 0, epos := 0 }

/-- 20_memory.md R46, every offset: `LEN`, `OCAP`, `CMD` with the command it starts, and the offsets whose writes
change nothing (10_state.md R17). -/
def Obligations.RegisterWriteEffects : Prop :=
  ∀ (s : State) (off v : Word) (rest : List Transaction),
    s.pending = .writeReg off v :: rest → off.toNat % 4 = 0 →
      (off = 0x08 → step s = .next { s with pending := rest, len := v }) ∧
      (off = 0x0C → step s = .next { s with pending := rest, ocap := v }) ∧
      (off = 0x00 →
        (∀ i, encode i = v → step s = exec i { s with pending := rest, cmd := v }) ∧
        ((∀ i, encode i ≠ v) →
          step s = .next { s with pending := rest, cmd := v, status := 0x11, result := 0, epos := 0 })) ∧
      (off ≠ 0x00 → off ≠ 0x08 → off ≠ 0x0C → step s = .next { s with pending := rest })

/-- 20_memory.md R47 with the register map of 10_state.md R10, the constants of R18 and R19, and 0 for a reserved
offset. -/
def Obligations.RegisterReadReturnsTheValue : Prop :=
  ∀ (s : State) (off : Word) (rest : List Transaction),
    s.pending = .readReg off :: rest → off.toNat % 4 = 0 →
      ∃ value : Word, step s = .next { s with pending := rest, replies := .word value :: s.replies } ∧
        (off = 0x00 → value = s.cmd) ∧ (off = 0x04 → value = s.status) ∧ (off = 0x08 → value = s.len) ∧
        (off = 0x0C → value = s.ocap) ∧ (off = 0x10 → value = s.result) ∧ (off = 0x14 → value = s.epos) ∧
        (off = 0x18 → value = if s.params.variant = .urlSafe then 1 else 0) ∧
        (off = 0x1C → value = BitVec.ofNat 32 s.params.maxLen) ∧
        (0x20 ≤ off.toNat → value = 0)

/-- 20_memory.md R48 and R49: `WriteIBUF` sets one byte and `ReadIBUF` returns one; nothing else changes. -/
def Obligations.InputBufferTransactions : Prop :=
  ∀ (s : State) (i : Word) (v : Byte) (rest : List Transaction),
    (s.pending = .writeIbuf i v :: rest →
      ∃ m : Memory, step s = .next { s with pending := rest, ibuf := m } ∧
        ∀ a, m.byteAt .ibuf a = if a = i.toNat then v else s.ibufAt a) ∧
    (s.pending = .readIbuf i :: rest →
      step s = .next { s with pending := rest, replies := .byte (s.ibufAt i.toNat) :: s.replies })

/-- 20_memory.md R50: the same for `OBUF`. -/
def Obligations.OutputBufferTransactions : Prop :=
  ∀ (s : State) (i : Word) (v : Byte) (rest : List Transaction),
    (s.pending = .writeObuf i v :: rest →
      ∃ m : Memory, step s = .next { s with pending := rest, obuf := m } ∧
        ∀ a, m.byteAt .obuf a = if a = i.toNat then v else s.obufAt a) ∧
    (s.pending = .readObuf i :: rest →
      step s = .next { s with pending := rest, replies := .byte (s.obufAt i.toNat) :: s.replies })

/-- 20_memory.md R51: the six mutable registers become zero; the parameters (hence `CFG`, `MAXLEN` and the tables)
and both buffers stay. -/
def Obligations.ResetClearsTheSixRegistersOnly : Prop :=
  ∀ (s : State) (rest : List Transaction), s.pending = .reset :: rest →
    step s = .next { s with pending := rest, cmd := 0, status := 0, len := 0, ocap := 0, result := 0, epos := 0 }

/-- The only refusal a step gives: a register access that is not one aligned word (20_memory.md R38, U13; the
refusal is log entry 5). With nothing pending, nothing changes (log entry 4). -/
def Obligations.OnlyMisalignedRegisterAccessIsRefused : Prop :=
  (∀ (s : State) (r : Refusal), step s = .refused r ↔
    ∃ (off : Word) (rest : List Transaction), off.toNat % 4 ≠ 0 ∧ r = .misalignedRegisterAccess off ∧
      (s.pending = .readReg off :: rest ∨ ∃ v, s.pending = .writeReg off v :: rest)) ∧
  ∀ s : State, s.pending = [] → step s = .next s

/-- Whole-machine rule (20_memory.md R42; 10_state.md R11 to R19, R25, R26; 70_reset_and_hazards.md R139): each part
of the state changes only by the transactions that may change it. -/
def Obligations.EachPartChangesOnlyByItsOwnTransactions : Prop :=
  ∀ (s u : State) (t : Transaction) (rest : List Transaction), s.pending = t :: rest → step s = .next u →
    u.params = s.params ∧ u.pending = rest ∧
    (u.len ≠ s.len → t = .reset ∨ ∃ v, t = .writeReg 0x08 v) ∧
    (u.ocap ≠ s.ocap → t = .reset ∨ ∃ v, t = .writeReg 0x0C v) ∧
    (u.cmd ≠ s.cmd ∨ u.status ≠ s.status ∨ u.result ≠ s.result ∨ u.epos ≠ s.epos →
      t = .reset ∨ ∃ w, t = .writeReg 0x00 w) ∧
    (u.ibuf ≠ s.ibuf → ∃ i v, t = .writeIbuf i v) ∧
    (u.obuf ≠ s.obuf → (∃ i v, t = .writeObuf i v) ∨
      ∃ i, transcodes i = true ∧ t = .writeReg 0x00 (encode i) ∧ u.status = 0x01) ∧
    (u.replies ≠ s.replies → (∃ off, t = .readReg off) ∨ (∃ i, t = .readIbuf i) ∨ ∃ i, t = .readObuf i)

/-- Every step keeps the invariant, from every state that meets it: the parameter bounds, the canonical buffers,
the seven words `STATUS` reads as, `CMD`, `RESULT` and `EPOS` against `STATUS` (10_state.md R11 to R16, R120). -/
def Obligations.StepKeepsTheMachineInvariant : Prop :=
  ∀ s u : State, s.Inv → step s = .next u → u.Inv

/-- The invariant holds after reset. The parameters there are the model's choice (log entry 2). -/
def Obligations.ResetStateMeetsTheInvariant : Prop := State.reset.Inv

/-- A queue of transactions whose register accesses are aligned runs to its end, one step each, whatever they are:
every command terminates and nothing stops the machine (70_reset_and_hazards.md R141, 60_exceptions.md R123). -/
def Obligations.AlignedTransactionsRunToTheEnd : Prop :=
  ∀ s : State, (∀ t ∈ s.pending, t.wf = true) →
    ∃ u, core.run s.pending.length s = .next u ∧ u.pending = [] ∧ u.params = s.params

/-! ## The commands -/

/-- 40_length.md R73. -/
def Obligations.EnclenComputesTheTextLength : Prop :=
  ∀ s : State, s.params.wf →
    (s.params.maxLen < s.len.toNat →
      exec .enclen s = .next { s with status := 0x21, result := 0, epos := 0 }) ∧
    (s.len.toNat ≤ s.params.maxLen →
      ∃ r : Word, exec .enclen s = .next { s with status := 0x01, result := r, epos := 0 } ∧
        r.toNat = 4 * ((s.len.toNat + 2) / 3))

/-- 40_length.md R75, with `padcount` of R74. -/
def Obligations.DeclenComputesTheByteCount : Prop :=
  ∀ (s : State) (L : Nat), s.len.toNat = L → s.params.wf →
    (s.params.maxLen < L ∨ L = 0 ∨ L % 4 ≠ 0 →
      exec .declen s = .next { s with status := 0x21, result := 0, epos := 0 }) ∧
    (L ≤ s.params.maxLen → 0 < L → L % 4 = 0 →
      (s.ibufAt (L - 2) = 0x3D → s.ibufAt (L - 1) ≠ 0x3D →
        exec .declen s = .next { s with status := 0x41, result := 0, epos := BitVec.ofNat 32 (L - 2) }) ∧
      ((s.ibufAt (L - 2) = 0x3D → s.ibufAt (L - 1) = 0x3D) →
        ∃ r : Word, exec .declen s = .next { s with status := 0x01, result := r, epos := 0 } ∧
          r.toNat = 3 * (L / 4) - textPads s.ibufAt L))

/-- 41_encode.md R84, with `encblk` of R81 in closed form: the four characters, the terminator, and every other
byte of `OBUF` as before. -/
def Obligations.EncblkEncodesOneFinalBlock : Prop :=
  ∀ (s : State) (k : Nat), s.len.toNat = k →
    (s.params.maxLen < k ∨ k < 1 ∨ 3 < k →
      exec .encblk s = .next { s with status := 0x21, result := 0, epos := 0 }) ∧
    (k ≤ s.params.maxLen → 1 ≤ k → k ≤ 3 →
      (s.ocap.toNat < 5 → exec .encblk s = .next { s with status := 0x51, result := 0, epos := 0 }) ∧
      (5 ≤ s.ocap.toNat →
        ∃ m : Memory, exec .encblk s = .next { s with obuf := m, status := 0x01, result := 4, epos := 0 } ∧
          ∀ a, m.byteAt .obuf a =
            if a < 4 then encCharAt s.params.variant s.ibufAt k a else if a = 4 then 0x00 else s.obufAt a))

/-- 41_encode.md R88, the driver's text in closed form: character `j` of block `q` is sextet `j` of the window of
the block's bytes, or `=` (R57, R81, R85, R86); the terminator at `enclen(LEN)`; every other byte as before. -/
def Obligations.EncEncodesTheWholeInput : Prop :=
  ∀ (s : State) (n m : Nat), s.len.toNat = n → m = 4 * ((n + 2) / 3) →
    (s.params.maxLen < n → exec .enc s = .next { s with status := 0x21, result := 0, epos := 0 }) ∧
    (n ≤ s.params.maxLen → s.ocap.toNat < m + 1 →
      exec .enc s = .next { s with status := 0x51, result := 0, epos := 0 }) ∧
    (n ≤ s.params.maxLen → m + 1 ≤ s.ocap.toNat →
      ∃ (mem : Memory) (r : Word), exec .enc s = .next { s with obuf := mem, status := 0x01, result := r, epos := 0 } ∧
        r.toNat = m ∧
        ∀ a, mem.byteAt .obuf a =
          if a < m then encCharAt s.params.variant s.ibufAt n a else if a = m then 0x00 else s.obufAt a)

/-- 42_decode.md R103, the bytes in closed form; the first offending index by R93. -/
def Obligations.DecblkDecodesOneFinalQuantum : Prop :=
  ∀ (s : State) (v : Variant) (T : Nat → Byte) (n : Nat),
    s.params.variant = v → s.ibufAt = T → n = 3 - textPads T 4 →
    (s.params.maxLen < s.len.toNat ∨ s.len.toNat ≠ 4 →
      exec .decblk s = .next { s with status := 0x21, result := 0, epos := 0 }) ∧
    (s.len.toNat ≤ s.params.maxLen → s.len.toNat = 4 →
      (∀ j, firstOffender v T 4 j →
        exec .decblk s =
          .next { s with status := if T j = 0x3D then 0x41 else 0x31, result := 0, epos := BitVec.ofNat 32 j }) ∧
      (allAcceptable v T 4 →
        (s.ocap.toNat < n + 1 → exec .decblk s = .next { s with status := 0x51, result := 0, epos := 0 }) ∧
        (n + 1 ≤ s.ocap.toNat →
          ∃ (m : Memory) (r : Word), exec .decblk s = .next { s with obuf := m, status := 0x01, result := r, epos := 0 } ∧
            r.toNat = n ∧
            ∀ a, m.byteAt .obuf a =
              if a < n then decByteAt v T a else if a = n then 0x00 else s.obufAt a)))

/-- 42_decode.md R108, the driver's bytes in closed form (R57, R105), the empty text included (R106). -/
def Obligations.DecDecodesTheWholeText : Prop :=
  ∀ (s : State) (v : Variant) (T : Nat → Byte) (L n : Nat),
    s.params.variant = v → s.ibufAt = T → s.len.toNat = L → n = textBytes T L →
    (s.params.maxLen < L ∨ L % 4 ≠ 0 →
      exec .dec s = .next { s with status := 0x21, result := 0, epos := 0 }) ∧
    (L ≤ s.params.maxLen → L % 4 = 0 →
      (∀ j, firstOffender v T L j →
        exec .dec s =
          .next { s with status := if T j = 0x3D then 0x41 else 0x31, result := 0, epos := BitVec.ofNat 32 j }) ∧
      (allAcceptable v T L →
        (s.ocap.toNat < n + 1 → exec .dec s = .next { s with status := 0x51, result := 0, epos := 0 }) ∧
        (n + 1 ≤ s.ocap.toNat →
          ∃ (m : Memory) (r : Word), exec .dec s = .next { s with obuf := m, status := 0x01, result := r, epos := 0 } ∧
            r.toNat = n ∧
            ∀ a, m.byteAt .obuf a =
              if a < n then decByteAt v T a else if a = n then 0x00 else s.obufAt a)))

/-- 60_exceptions.md R113: for every command, `ERR_LENGTH` exactly on the lengths of its row. -/
def Obligations.LengthErrorExactlyAsTabled : Prop :=
  ∀ (i : Instr) (s : State), ∃ t, exec i s = .next t ∧
    (t.status = 0x21 ↔ lengthBad i s.len.toNat s.params.maxLen) ∧
    (lengthBad i s.len.toNat s.params.maxLen → t = { s with status := 0x21, result := 0, epos := 0 })

/-- 60_exceptions.md R119, on any state and any word written to `CMD`: exactly one code is reported, the first that
applies in the fixed order. -/
def Obligations.OneErrorIsReportedByPriority : Prop :=
  ∀ (s : State) (w : Word) (rest : List Transaction) (v : Variant) (T : Nat → Byte) (L : Nat),
    s.pending = .writeReg 0x00 w :: rest → s.params.variant = v → s.ibufAt = T → s.len.toNat = L →
    ∃ t, step s = .next t ∧
      ((∀ i, encode i ≠ w) → t.status = 0x11) ∧
      ∀ i, encode i = w →
        (lengthBad i L s.params.maxLen → t.status = 0x21) ∧
        (¬ lengthBad i L s.params.maxLen →
          (∀ j, offenderOf i v T L j →
            t.status = (if T j = 0x3D then 0x41 else 0x31) ∧ t.epos = BitVec.ofNat 32 j) ∧
          ((∀ j, ¬ offenderOf i v T L j) →
            (capacityShort i T L s.ocap.toNat → t.status = 0x51) ∧
            (¬ capacityShort i T L s.ocap.toNat → t.status = 0x01)))

/-- 60_exceptions.md R117: a command that ends with an error writes `RESULT`, `EPOS` and `STATUS`, and nothing else
changes; the `STATUS` word is the one of its code, and `EPOS` is 0 but for `ERR_CHAR` and `ERR_PAD` (R111). -/
def Obligations.ErrorWritesStatusResultEposOnly : Prop :=
  ∀ (i : Instr) (s t : State), exec i s = .next t → t.status ≠ 0x01 →
    t = { s with status := t.status, result := 0, epos := t.epos } ∧
    (t.status = 0x21 ∨ t.status = 0x31 ∨ t.status = 0x41 ∨ t.status = 0x51) ∧
    (t.epos ≠ 0 → t.status = 0x31 ∨ t.status = 0x41)

/-- The frame of the six commands: a command writes `STATUS`, `RESULT`, `EPOS` and, when it is a transcoding
command that succeeds, the bytes `OBUF[0 .. RESULT]`, the last of them the terminator and all below `OCAP`
(20_memory.md R36, 30_encoding.md R63). Everything else is unchanged, every byte of both buffers included. -/
def Obligations.CommandFrame : Prop :=
  ∀ (i : Instr) (s t : State), exec i s = .next t →
    t.cmd = s.cmd ∧ t.len = s.len ∧ t.ocap = s.ocap ∧ t.params = s.params ∧ t.ibuf = s.ibuf ∧
    t.pending = s.pending ∧ t.replies = s.replies ∧
    (∀ a, t.ibufAt a = s.ibufAt a) ∧
    (transcodes i = true → t.status = 0x01 →
      t.result.toNat + 1 ≤ s.ocap.toNat ∧ t.obufAt t.result.toNat = 0x00 ∧
      ∀ a, t.result.toNat < a → t.obufAt a = s.obufAt a) ∧
    (transcodes i = false ∨ t.status ≠ 0x01 → t.obuf = s.obuf ∧ ∀ a, t.obufAt a = s.obufAt a)

/-- 60_exceptions.md R120, both ways: each "yes" is reached from some state and each "-" from none. -/
def Obligations.OutcomeCodesPerCommandAsTabled : Prop :=
  (∀ (i : Instr) (e : ErrCode), mayEnd i e = true ↔
    ∃ s t : State, s.params.wf ∧ exec i s = .next t ∧ t.status = statusWord e) ∧
  ∀ (s : State) (w : Word) (rest : List Transaction), s.pending = .writeReg 0x00 w :: rest → (∀ i, encode i ≠ w) →
    ∃ t, step s = .next t ∧ t.status = statusWord .cmd

/-- A command's outcome depends only on `VARIANT`, `MAXLEN`, `LEN`, `OCAP` and `IBUF[0 .. LEN-1]`: two states that
agree on those, and may differ in everything else, come out alike (10_state.md R27, 41_encode.md R83). -/
def Obligations.OutcomeDependsOnlyOnTheOperands : Prop :=
  ∀ (i : Instr) (s s' : State), s.params = s'.params → s.len = s'.len → s.ocap = s'.ocap →
    (∀ a, a < s.len.toNat → s.ibufAt a = s'.ibufAt a) →
      ∃ t t', exec i s = .next t ∧ exec i s' = .next t' ∧
        t.status = t'.status ∧ t.result = t'.result ∧ t.epos = t'.epos ∧
        (transcodes i = true → t.status = 0x01 → ∀ a, a ≤ t.result.toNat → t.obufAt a = t'.obufAt a)

/-- No sticky state: whatever `CMD`, `STATUS`, `RESULT`, `EPOS`, the queue and the replies held, the command does
the same (60_exceptions.md R123, 10_state.md R27). -/
def Obligations.NothingOfAnEarlierOutcomeMatters : Prop :=
  ∀ (i : Instr) (s t : State) (c st r e : Word) (p : List Transaction) (rs : List Reply), exec i s = .next t →
    exec i { s with cmd := c, status := st, result := r, epos := e, pending := p, replies := rs } =
      .next { t with cmd := c, pending := p, replies := rs }

/-- The same command again changes nothing more (20_memory.md R41). The premise is part of the invariant. -/
def Obligations.RepeatingACommandChangesNothing : Prop :=
  ∀ (i : Instr) (s t : State), s.obuf.wf → exec i s = .next t → exec i t = .next t

/-- 70_reset_and_hazards.md R130: after reset, before any `OCAP` write. -/
def Obligations.CommandsAfterResetBeforeCapacity : Prop :=
  (∀ (s : State) (rest : List Transaction), s.pending = .reset :: rest →
    ∃ u, step s = .next u ∧ u.ocap = 0 ∧ u.len = 0 ∧ doneField u.status = false) ∧
  (∀ (i : Instr) (s : State), s.ocap = 0 → transcodes i = true →
    ∃ t, exec i s = .next t ∧ t.obuf = s.obuf ∧
      (t.status = 0x51 ∨ t.status = 0x21 ∨ t.status = 0x31 ∨ t.status = 0x41)) ∧
  ∀ s : State, s.len = 0 →
    exec .enclen s = .next { s with status := 0x01, result := 0, epos := 0 } ∧
    ∀ i, i = .declen ∨ i = .decblk ∨ i = .encblk →
      exec i s = .next { s with status := 0x21, result := 0, epos := 0 }

/-- On the lengths they accept, the block commands do exactly what the drivers do (41_encode.md R81, R85;
42_decode.md R100, R105). -/
def Obligations.BlockCommandsAgreeWithDrivers : Prop :=
  ∀ s : State,
    (1 ≤ s.len.toNat → s.len.toNat ≤ 3 → exec .encblk s = exec .enc s) ∧
    (s.len.toNat = 4 → exec .decblk s = exec .dec s)

/-- 40_length.md R78: `DECLEN` looks at `LEN` and the last two characters only; it agrees with every non-empty text
`DEC` accepts; it accepts some that `DEC` rejects. -/
def Obligations.DeclenIsASizeNotAValidator : Prop :=
  (∀ (s t : State), 0 < s.len.toNat → exec .dec s = .next t → t.status = 0x01 →
    exec .declen s = .next { s with status := 0x01, result := t.result, epos := 0 }) ∧
  (∀ (s s' : State), s'.params.maxLen = s.params.maxLen → s'.len = s.len →
    s'.ibufAt (s.len.toNat - 2) = s.ibufAt (s.len.toNat - 2) →
    s'.ibufAt (s.len.toNat - 1) = s.ibufAt (s.len.toNat - 1) →
      ∃ st r e, exec .declen s = .next { s with status := st, result := r, epos := e } ∧
        exec .declen s' = .next { s' with status := st, result := r, epos := e }) ∧
  ∃ s t u : State, s.params.wf ∧ exec .declen s = .next t ∧ t.status = 0x01 ∧
    exec .dec s = .next u ∧ u.status ≠ 0x01

/-! ## The data encoding -/

/-- 10_state.md R20 and R21: the alphabet, byte by byte; its entries are distinct and none is `=`. -/
def Obligations.AlphabetTableAsTabled : Prop :=
  (∀ v : Variant, (List.range 62).map (fun k => alpha v (BitVec.ofNat 6 k)) =
    [0x41, 0x42, 0x43, 0x44, 0x45, 0x46, 0x47, 0x48, 0x49, 0x4A, 0x4B, 0x4C, 0x4D, 0x4E, 0x4F, 0x50,
     0x51, 0x52, 0x53, 0x54, 0x55, 0x56, 0x57, 0x58, 0x59, 0x5A] ++
    [0x61, 0x62, 0x63, 0x64, 0x65, 0x66, 0x67, 0x68, 0x69, 0x6A, 0x6B, 0x6C, 0x6D, 0x6E, 0x6F, 0x70,
     0x71, 0x72, 0x73, 0x74, 0x75, 0x76, 0x77, 0x78, 0x79, 0x7A] ++
    [0x30, 0x31, 0x32, 0x33, 0x34, 0x35, 0x36, 0x37, 0x38, 0x39]) ∧
  alpha .standard 62 = 0x2B ∧ alpha .standard 63 = 0x2F ∧ alpha .urlSafe 62 = 0x2D ∧ alpha .urlSafe 63 = 0x5F ∧
  ∀ (v : Variant) (x y : Sextet), alpha v x ≠ 0x3D ∧ (alpha v x = alpha v y → x = y)

/-- 10_state.md R22, R23, R24: `REV` inverts `ALPHA` and is 0 elsewhere, `VALID` is membership, `=` is not a member,
64 bytes are, and `REV` is 0 at 193 bytes. -/
def Obligations.ReverseTableInvertsTheAlphabet : Prop :=
  ∀ v : Variant,
    (∀ x : Sextet, rev v (alpha v x) = x) ∧
    (∀ c : Byte, (∀ x : Sextet, alpha v x ≠ c) → rev v c = 0) ∧
    (∀ c : Byte, valid v c = true ↔ ∃ x : Sextet, alpha v x = c) ∧
    valid v 0x3D = false ∧
    ((List.range 256).filter (fun k => valid v (BitVec.ofNat 8 k))).length = 64 ∧
    ((List.range 256).filter (fun k => rev v (BitVec.ofNat 8 k) == 0)).length = 193

/-- 30_encoding.md R60: the gearbox is a bijection, each way the inverse of the other. -/
def Obligations.GearboxIsABijection : Prop :=
  (∀ (b0 b1 b2 : Byte) (s0 s1 s2 s3 : Sextet), g34 b0 b1 b2 = (s0, s1, s2, s3) → g43 s0 s1 s2 s3 = (b0, b1, b2)) ∧
  ∀ (v0 v1 v2 v3 : Sextet) (b0 b1 b2 : Byte), g43 v0 v1 v2 v3 = (b0, b1, b2) → g34 b0 b1 b2 = (v0, v1, v2, v3)

/-- 30_encoding.md R57: the two readings of the 24-bit window. -/
def Obligations.WindowHasTwoReadings : Prop :=
  ∀ (b0 b1 b2 : Byte) (s0 s1 s2 s3 : Sextet), g34 b0 b1 b2 = (s0, s1, s2, s3) ↔
    b0.toNat * 2 ^ 16 + b1.toNat * 2 ^ 8 + b2.toNat =
      s0.toNat * 2 ^ 18 + s1.toNat * 2 ^ 12 + s2.toNat * 2 ^ 6 + s3.toNat

/-- 40_length.md R72: the bounds and laws of `enclen`, and the bound of the decode side. -/
def Obligations.TextLengthBounds : Prop :=
  ∀ n n' maxLen : Nat, n ≤ maxLen → maxLen ≤ 2 ^ 31 - 1 →
    enclen n ≤ enclen (2 ^ 31 - 1) ∧ enclen (2 ^ 31 - 1) = 2863311532 ∧ enclen n + 1 < 2 ^ 32 ∧
    3 * (n / 4) ≤ 3 * (2 ^ 31 - 1) / 4 ∧ 3 * (2 ^ 31 - 1) / 4 < 2 ^ 31 ∧
    (n ≤ n' → enclen n ≤ enclen n') ∧ enclen n % 4 = 0 ∧
    n ≤ 3 * enclen n / 4 ∧ 3 * enclen n / 4 ≤ n + 2

/-- The round trip (42_decode.md R109, its first half): `ENC` with enough capacity succeeds, and on a machine of
the same parameters whose `IBUF` holds the text, `DEC` with enough capacity gives back the length and the bytes. -/
def Obligations.DecodeOfEncodeIsTheInput : Prop :=
  ∀ (s : State) (n m : Nat), s.len.toNat = n → m = 4 * ((n + 2) / 3) → m ≤ s.params.maxLen → m + 1 ≤ s.ocap.toNat →
    ∃ t, exec .enc s = .next t ∧ t.status = 0x01 ∧ t.result.toNat = m ∧
      ∀ u : State, u.params = s.params → u.len = t.result → n + 1 ≤ u.ocap.toNat →
        (∀ a, a < m → u.ibufAt a = t.obufAt a) →
          ∃ r, exec .dec u = .next r ∧ r.status = 0x01 ∧ r.result = s.len ∧ ∀ a, a < n → r.obufAt a = s.ibufAt a

/-- The converse for canonical text (42_decode.md R109, its second half): a well-formed text whose discarded bits
are zero comes back from `ENC` of `DEC`. -/
def Obligations.EncodeOfDecodeIsTheCanonicalText : Prop :=
  ∀ (s : State) (L : Nat), s.len.toNat = L → 0 < L → L ≤ s.params.maxLen → L % 4 = 0 →
    allAcceptable s.params.variant s.ibufAt L → textBytes s.ibufAt L + 1 ≤ s.ocap.toNat →
    (textPads s.ibufAt L = 2 → (rev s.params.variant (s.ibufAt (L - 3))).toNat % 16 = 0) →
    (textPads s.ibufAt L = 1 → (rev s.params.variant (s.ibufAt (L - 2))).toNat % 4 = 0) →
      ∃ t, exec .dec s = .next t ∧ t.status = 0x01 ∧
        ∀ u : State, u.params = s.params → u.len = t.result → L + 1 ≤ u.ocap.toNat →
          (∀ a, a < t.result.toNat → u.ibufAt a = t.obufAt a) →
            ∃ r, exec .enc u = .next r ∧ r.status = 0x01 ∧ r.result = s.len ∧ ∀ a, a < L → r.obufAt a = s.ibufAt a

/-- 40_length.md R76 (a): `padcount` and `declen` of the text of `n` bytes recover the padding and `n`, and `DECLEN`
returns it where the text is short enough to be accepted. -/
def Obligations.DeclenOfEncodedTextIsTheInputLength : Prop :=
  ∀ (s : State) (n m : Nat), s.len.toNat = n → 1 ≤ n → n ≤ s.params.maxLen → m = 4 * ((n + 2) / 3) →
    m + 1 ≤ s.ocap.toNat →
    ∃ t, exec .enc s = .next t ∧ t.status = 0x01 ∧
      textPads t.obufAt m = (3 - n % 3) % 3 ∧ textBytes t.obufAt m = n ∧
      ∀ u : State, u.params = s.params → m ≤ s.params.maxLen → u.len = t.result →
        (∀ a, a < m → u.ibufAt a = t.obufAt a) →
          ∃ r, exec .declen u = .next r ∧ r.status = 0x01 ∧ r.result = s.len

/-- The text `ENC` writes (41_encode.md R89 b, c, d): `=` exactly in the last `(3 - n mod 3) mod 3` places, alphabet
characters elsewhere, and none of the other variant's symbols. -/
def Obligations.EncodedTextIsAlphabetThenPads : Prop :=
  ∀ (s t : State) (n : Nat), s.len.toNat = n → exec .enc s = .next t → t.status = 0x01 →
    ∀ a, a < 4 * ((n + 2) / 3) →
      (t.obufAt a = 0x3D ↔ 4 * ((n + 2) / 3) ≤ a + (3 - n % 3) % 3) ∧
      (t.obufAt a ≠ 0x3D → inAlphabet s.params.variant (t.obufAt a)) ∧
      (s.params.variant = .standard → t.obufAt a ≠ 0x2D ∧ t.obufAt a ≠ 0x5F) ∧
      (s.params.variant = .urlSafe → t.obufAt a ≠ 0x2B ∧ t.obufAt a ≠ 0x2F)

/-- Encoding of whole blocks followed by anything is the encoding of the parts (41_encode.md R89 f). -/
def Obligations.EncodingConcatenatesAtBlockBoundaries : Prop :=
  ∀ (v : Variant) (B B' : List Byte), B.length % 3 = 0 → encText v (B ++ B') = encText v B ++ encText v B'

/-- The two variants' texts differ exactly where the sextet is 62 or 63 (41_encode.md R89 e). -/
def Obligations.VariantsDifferOnlyAtTheTwoSymbols : Prop :=
  ∀ (s t : State) (M : Nat), s.params = ⟨.standard, M⟩ → exec .enc s = .next t → t.status = 0x01 →
    ∃ t', exec .enc { s with params := ⟨.urlSafe, M⟩ } = .next t' ∧ t'.status = 0x01 ∧ t'.result = t.result ∧
      ∀ a, a < t.result.toNat →
        t'.obufAt a = if t.obufAt a = 0x2B then 0x2D else if t.obufAt a = 0x2F then 0x5F else t.obufAt a

/-- The bits of the last data sextet that belong to no byte are ignored (42_decode.md R102): changing them, by
changing that one character, changes nothing of what `DEC` gives. -/
def Obligations.DiscardedBitsDoNotMatter : Prop :=
  ∀ (s s' : State) (v : Variant) (L j k : Nat), s.params.variant = v → s'.params = s.params → s'.len = s.len →
    s'.ocap = s.ocap → s.len.toNat = L → 0 < L → L % 4 = 0 → allAcceptable v s.ibufAt L →
    (textPads s.ibufAt L = 2 ∧ j + 3 = L ∧ k = 16 ∨ textPads s.ibufAt L = 1 ∧ j + 2 = L ∧ k = 4) →
    (∀ a, a ≠ j → s'.ibufAt a = s.ibufAt a) → inAlphabet v (s'.ibufAt j) →
    (rev v (s'.ibufAt j)).toNat / k = (rev v (s.ibufAt j)).toNat / k →
      ∃ t t', exec .dec s = .next t ∧ exec .dec s' = .next t' ∧
        t'.status = t.status ∧ t'.result = t.result ∧ t'.epos = t.epos ∧
        (t.status = 0x01 → ∀ a, a ≤ t.result.toNat → t'.obufAt a = t.obufAt a)
end

