-- ==== Sys2Proof/Laws/Memory.lean ====
section
/-! SUPPORT. The laws of a buffer: a read after a write, the canonical form, and that equal contents are equal data. -/

namespace Sys2Proof.Machine

@[simp] theorem Memory.lookup_nil (a : Nat) : Memory.lookup [] a = none := rfl

@[simp] theorem Memory.lookup_cons (k : Nat) (b : Byte) (m : Memory) (a : Nat) :
    Memory.lookup ((k, b) :: m) a = if k = a then some b else Memory.lookup m a := rfl

@[simp] theorem Memory.lookup_write_same (m : Memory) (a : Nat) (v : Byte) :
    (m.write a v).lookup a = some v := by
  induction m with
  | nil => simp [Memory.write]
  | cons c m ih =>
    obtain ⟨k, b⟩ := c
    simp only [Memory.write]
    split
    · simp
    · split
      · simp
      · rename_i h1 h2
        have : k ≠ a := fun h => h2 h.symm
        simp [this, ih]

theorem Memory.lookup_write_ne (m : Memory) {a x : Nat} (v : Byte) (h : x ≠ a) :
    (m.write a v).lookup x = m.lookup x := by
  induction m with
  | nil => simp [Memory.write, h.symm]
  | cons c m ih =>
    obtain ⟨k, b⟩ := c
    simp only [Memory.write]
    split
    · simp [h.symm]
    · split
      · rename_i h1 h2
        subst h2
        simp [h.symm]
      · simp [ih]

theorem Memory.lookup_write (m : Memory) (a x : Nat) (v : Byte) :
    (m.write a v).lookup x = if x = a then some v else m.lookup x := by
  split
  · rename_i h; subst h; simp
  · rename_i h; exact Memory.lookup_write_ne m v h

theorem Memory.byteAt_write (which : Buffer) (m : Memory) (a x : Nat) (v : Byte) :
    (m.write a v).byteAt which x = if x = a then v else m.byteAt which x := by
  simp only [Memory.byteAt, Memory.lookup_write]
  split <;> rfl

theorem Memory.lookup_writeAll (m : Memory) (a x : Nat) (bytes : List Byte) :
    (m.writeAll a bytes).lookup x = if a ≤ x then (bytes[x - a]?).or (m.lookup x) else m.lookup x := by
  induction bytes generalizing m a with
  | nil => simp [Memory.writeAll]
  | cons b bytes ih =>
    rw [Memory.writeAll, ih, Memory.lookup_write]
    rcases Nat.lt_trichotomy x a with h | h | h
    · simp [show ¬ a + 1 ≤ x by omega, show ¬ a ≤ x by omega, show x ≠ a by omega]
    · simp [h]
    · obtain ⟨d, rfl⟩ : ∃ d, x = a + 1 + d := ⟨x - (a + 1), by omega⟩
      have hs : a + 1 + d - a = d + 1 := by omega
      simp [hs, show a ≤ a + 1 + d by omega, show a + 1 + d ≠ a by omega]

/-- What a buffer holds after the bytes are stored from index 0 on. -/
theorem Memory.byteAt_writeAll (which : Buffer) (m : Memory) (x : Nat) (bytes : List Byte) :
    (m.writeAll 0 bytes).byteAt which x = (bytes[x]?).getD (m.byteAt which x) := by
  simp only [Memory.byteAt, Memory.lookup_writeAll]
  cases bytes[x]? <;> simp

theorem Memory.mem_write {m : Memory} {a : Nat} {v : Byte} {c : Host.Cell} (h : c ∈ m.write a v) :
    c = (a, v) ∨ c ∈ m := by
  induction m with
  | nil => simpa [Memory.write] using h
  | cons d m ih =>
    obtain ⟨k, b⟩ := d
    simp only [Memory.write] at h
    split at h
    · simpa using h
    · split at h
      · simp only [List.mem_cons] at h ⊢
        rcases h with h | h
        · exact .inl h
        · exact .inr (.inr h)
      · simp only [List.mem_cons] at h ⊢
        rcases h with h | h
        · exact .inr (.inl h)
        · rcases ih h with h | h
          · exact .inl h
          · exact .inr (.inr h)

/-- A store keeps the canonical form. -/
theorem Memory.write_wf {m : Memory} {a : Nat} (v : Byte) (hm : m.wf) (ha : a < 2 ^ 32) : (m.write a v).wf := by
  refine ⟨?_, fun c hc => ?_⟩
  · replace hm := hm.1
    induction m with
    | nil => simp [Memory.write]
    | cons c m ih =>
      obtain ⟨k, b⟩ := c
      rw [List.pairwise_cons] at hm
      simp only [Memory.write]
      split
      · rename_i h
        refine List.pairwise_cons.2 ⟨fun d hd => ?_, List.pairwise_cons.2 hm⟩
        rcases List.mem_cons.1 hd with rfl | hd
        · exact h
        · exact Nat.lt_trans h (hm.1 d hd)
      · split
        · rename_i h2
          subst h2
          exact List.pairwise_cons.2 hm
        · refine List.pairwise_cons.2 ⟨fun d hd => ?_, ih hm.2⟩
          rcases Memory.mem_write hd with rfl | hd
          · show k < a
            omega
          · exact hm.1 d hd
  · rcases Memory.mem_write hc with rfl | hc
    · exact ha
    · exact hm.2 c hc

/-- A store of several bytes keeps the canonical form. -/
theorem Memory.writeAll_wf {m : Memory} {a : Nat} {bytes : List Byte} (hm : m.wf)
    (ha : a + bytes.length ≤ 2 ^ 32) : (m.writeAll a bytes).wf := by
  induction bytes generalizing m a with
  | nil => exact hm
  | cons b bytes ih =>
    simp only [List.length_cons] at ha
    exact ih (Memory.write_wf b hm (by omega)) (by omega)

theorem Memory.lookup_eq_none_of_lt {m : Memory} {a : Nat} (h : ∀ c ∈ m, a < c.1) : m.lookup a = none := by
  induction m with
  | nil => rfl
  | cons c m ih =>
    obtain ⟨k, b⟩ := c
    have hk : a < k := h (k, b) (by simp)
    rw [Memory.lookup_cons, if_neg (by omega)]
    exact ih fun d hd => h d (by simp [hd])

/-- Storing again what is already written there changes nothing. -/
theorem Memory.write_of_lookup {m : Memory} {a : Nat} {v : Byte} (hm : m.wf) (h : m.lookup a = some v) :
    m.write a v = m := by
  replace hm := hm.1
  induction m with
  | nil => simp at h
  | cons c m ih =>
    obtain ⟨k, b⟩ := c
    rw [List.pairwise_cons] at hm
    simp only [Memory.write]
    rw [Memory.lookup_cons] at h
    split at h
    · rename_i hk
      subst hk
      simp_all
    · have hne : ¬ a < k := fun hlt => by
        have := Memory.lookup_eq_none_of_lt (m := m) (a := a) fun d hd => Nat.lt_trans hlt (hm.1 d hd)
        simp [this] at h
      rw [if_neg hne, if_neg (by omega), ih h hm.2]

/-- Storing again the bytes already written there changes nothing. -/
theorem Memory.writeAll_of_lookup {m : Memory} {a : Nat} {bytes : List Byte} (hm : m.wf)
    (h : ∀ k (hk : k < bytes.length), m.lookup (a + k) = some bytes[k]) : m.writeAll a bytes = m := by
  induction bytes generalizing a with
  | nil => rfl
  | cons b bytes ih =>
    have h0 : m.lookup a = some b := h 0 (by simp)
    rw [Memory.writeAll, Memory.write_of_lookup hm h0]
    refine ih fun k hk => ?_
    have := h (k + 1) (by simpa using hk)
    rw [show a + 1 + k = a + (k + 1) by omega, this]
    simp

/-- Two buffers in canonical form with the same written bytes are the same list. -/
theorem Memory.ext_lookup {m m' : Memory} (hm : m.wf) (hm' : m'.wf) (h : ∀ a, m.lookup a = m'.lookup a) :
    m = m' := by
  replace hm := hm.1
  replace hm' := hm'.1
  induction m generalizing m' with
  | nil =>
    cases m' with
    | nil => rfl
    | cons c m' => have := h c.1; simp [Memory.lookup] at this
  | cons c m ih =>
    obtain ⟨k, b⟩ := c
    cases m' with
    | nil => have := h k; simp at this
    | cons c' m' =>
      obtain ⟨k', b'⟩ := c'
      rw [List.pairwise_cons] at hm hm'
      have hk : k = k' := by
        rcases Nat.lt_trichotomy k k' with hlt | heq | hlt
        · have h0 := h k
          rw [Memory.lookup_cons, if_pos rfl, Memory.lookup_cons, if_neg (by omega),
            Memory.lookup_eq_none_of_lt fun d hd => Nat.lt_trans hlt (hm'.1 d hd)] at h0
          simp at h0
        · exact heq
        · have h0 := h k'
          rw [Memory.lookup_cons, if_neg (by omega), Memory.lookup_cons, if_pos rfl,
            Memory.lookup_eq_none_of_lt fun d hd => Nat.lt_trans hlt (hm.1 d hd)] at h0
          simp at h0
      subst hk
      have hb : b = b' := by simpa using h k
      subst hb
      rw [ih (m' := m') (fun a => ?_) hm.2 hm'.2]
      by_cases hak : k = a
      · subst hak
        rw [Memory.lookup_eq_none_of_lt hm.1, Memory.lookup_eq_none_of_lt hm'.1]
      · have := h a
        rwa [Memory.lookup_cons, Memory.lookup_cons, if_neg hak, if_neg hak] at this

/-- The buffers are in canonical form after reset. -/
theorem Memory.reset_wf : State.reset.ibuf.wf ∧ State.reset.obuf.wf := by decide

end Sys2Proof.Machine
end

