-- ==== Sys2Proof/Laws/State.lean ====
section
/-! SUPPORT. One lemma per field per named update of State, each true by rfl. -/

namespace Sys2Proof.Machine

variable (s : State)

/-! The output bytes go to `OBUF` and nowhere else (20_memory.md R36). -/

@[simp] theorem State.storeOut_cmd (bytes : List Byte) : (s.storeOut bytes).cmd = s.cmd := rfl
@[simp] theorem State.storeOut_status (bytes : List Byte) : (s.storeOut bytes).status = s.status := rfl
@[simp] theorem State.storeOut_len (bytes : List Byte) : (s.storeOut bytes).len = s.len := rfl
@[simp] theorem State.storeOut_ocap (bytes : List Byte) : (s.storeOut bytes).ocap = s.ocap := rfl
@[simp] theorem State.storeOut_result (bytes : List Byte) : (s.storeOut bytes).result = s.result := rfl
@[simp] theorem State.storeOut_epos (bytes : List Byte) : (s.storeOut bytes).epos = s.epos := rfl
@[simp] theorem State.storeOut_params (bytes : List Byte) : (s.storeOut bytes).params = s.params := rfl
@[simp] theorem State.storeOut_ibuf (bytes : List Byte) : (s.storeOut bytes).ibuf = s.ibuf := rfl
@[simp] theorem State.storeOut_obuf (bytes : List Byte) : (s.storeOut bytes).obuf = s.obuf.writeAll 0 bytes := rfl
@[simp] theorem State.storeOut_pending (bytes : List Byte) : (s.storeOut bytes).pending = s.pending := rfl
@[simp] theorem State.storeOut_replies (bytes : List Byte) : (s.storeOut bytes).replies = s.replies := rfl

/-! Successful completion (60_exceptions.md R116). -/

@[simp] theorem State.complete_cmd (r : Nat) : (s.complete r).cmd = s.cmd := rfl
@[simp] theorem State.complete_status (r : Nat) : (s.complete r).status = statusWord .ok := rfl
@[simp] theorem State.complete_len (r : Nat) : (s.complete r).len = s.len := rfl
@[simp] theorem State.complete_ocap (r : Nat) : (s.complete r).ocap = s.ocap := rfl
@[simp] theorem State.complete_result (r : Nat) : (s.complete r).result = BitVec.ofNat 32 r := rfl
@[simp] theorem State.complete_epos (r : Nat) : (s.complete r).epos = 0 := rfl
@[simp] theorem State.complete_params (r : Nat) : (s.complete r).params = s.params := rfl
@[simp] theorem State.complete_ibuf (r : Nat) : (s.complete r).ibuf = s.ibuf := rfl
@[simp] theorem State.complete_obuf (r : Nat) : (s.complete r).obuf = s.obuf := rfl
@[simp] theorem State.complete_pending (r : Nat) : (s.complete r).pending = s.pending := rfl
@[simp] theorem State.complete_replies (r : Nat) : (s.complete r).replies = s.replies := rfl

/-! Error completion (R117). -/

@[simp] theorem State.raise_cmd (e : ErrCode) (pos : Nat) : (s.raise e pos).cmd = s.cmd := rfl
@[simp] theorem State.raise_status (e : ErrCode) (pos : Nat) : (s.raise e pos).status = statusWord e := rfl
@[simp] theorem State.raise_len (e : ErrCode) (pos : Nat) : (s.raise e pos).len = s.len := rfl
@[simp] theorem State.raise_ocap (e : ErrCode) (pos : Nat) : (s.raise e pos).ocap = s.ocap := rfl
@[simp] theorem State.raise_result (e : ErrCode) (pos : Nat) : (s.raise e pos).result = 0 := rfl
@[simp] theorem State.raise_epos (e : ErrCode) (pos : Nat) : (s.raise e pos).epos = BitVec.ofNat 32 pos := rfl
@[simp] theorem State.raise_params (e : ErrCode) (pos : Nat) : (s.raise e pos).params = s.params := rfl
@[simp] theorem State.raise_ibuf (e : ErrCode) (pos : Nat) : (s.raise e pos).ibuf = s.ibuf := rfl
@[simp] theorem State.raise_obuf (e : ErrCode) (pos : Nat) : (s.raise e pos).obuf = s.obuf := rfl
@[simp] theorem State.raise_pending (e : ErrCode) (pos : Nat) : (s.raise e pos).pending = s.pending := rfl
@[simp] theorem State.raise_replies (e : ErrCode) (pos : Nat) : (s.raise e pos).replies = s.replies := rfl

/-! Output, terminator, completion (R36, R116). -/

@[simp] theorem State.deliver_cmd (bytes : List Byte) (r : Nat) : (s.deliver bytes r).cmd = s.cmd := rfl
@[simp] theorem State.deliver_status (bytes : List Byte) (r : Nat) : (s.deliver bytes r).status = statusWord .ok := rfl
@[simp] theorem State.deliver_len (bytes : List Byte) (r : Nat) : (s.deliver bytes r).len = s.len := rfl
@[simp] theorem State.deliver_ocap (bytes : List Byte) (r : Nat) : (s.deliver bytes r).ocap = s.ocap := rfl
@[simp] theorem State.deliver_result (bytes : List Byte) (r : Nat) : (s.deliver bytes r).result = BitVec.ofNat 32 r := rfl
@[simp] theorem State.deliver_epos (bytes : List Byte) (r : Nat) : (s.deliver bytes r).epos = 0 := rfl
@[simp] theorem State.deliver_params (bytes : List Byte) (r : Nat) : (s.deliver bytes r).params = s.params := rfl
@[simp] theorem State.deliver_ibuf (bytes : List Byte) (r : Nat) : (s.deliver bytes r).ibuf = s.ibuf := rfl
@[simp] theorem State.deliver_obuf (bytes : List Byte) (r : Nat) : (s.deliver bytes r).obuf = s.obuf.writeAll 0 (bytes ++ [Config.term]) := rfl
@[simp] theorem State.deliver_pending (bytes : List Byte) (r : Nat) : (s.deliver bytes r).pending = s.pending := rfl
@[simp] theorem State.deliver_replies (bytes : List Byte) (r : Nat) : (s.deliver bytes r).replies = s.replies := rfl

/-! An illegal word (R112). -/

@[simp] theorem State.illegalWord_cmd : (s.illegalWord).cmd = s.cmd := rfl
@[simp] theorem State.illegalWord_status : (s.illegalWord).status = statusWord .cmd := rfl
@[simp] theorem State.illegalWord_len : (s.illegalWord).len = s.len := rfl
@[simp] theorem State.illegalWord_ocap : (s.illegalWord).ocap = s.ocap := rfl
@[simp] theorem State.illegalWord_result : (s.illegalWord).result = 0 := rfl
@[simp] theorem State.illegalWord_epos : (s.illegalWord).epos = 0 := rfl
@[simp] theorem State.illegalWord_params : (s.illegalWord).params = s.params := rfl
@[simp] theorem State.illegalWord_ibuf : (s.illegalWord).ibuf = s.ibuf := rfl
@[simp] theorem State.illegalWord_obuf : (s.illegalWord).obuf = s.obuf := rfl
@[simp] theorem State.illegalWord_pending : (s.illegalWord).pending = s.pending := rfl
@[simp] theorem State.illegalWord_replies : (s.illegalWord).replies = s.replies := rfl

/-! `CMD` (10_state.md R11). -/

@[simp] theorem State.storeCmd_cmd (w : Word) : (s.storeCmd w).cmd = w := rfl
@[simp] theorem State.storeCmd_status (w : Word) : (s.storeCmd w).status = s.status := rfl
@[simp] theorem State.storeCmd_len (w : Word) : (s.storeCmd w).len = s.len := rfl
@[simp] theorem State.storeCmd_ocap (w : Word) : (s.storeCmd w).ocap = s.ocap := rfl
@[simp] theorem State.storeCmd_result (w : Word) : (s.storeCmd w).result = s.result := rfl
@[simp] theorem State.storeCmd_epos (w : Word) : (s.storeCmd w).epos = s.epos := rfl
@[simp] theorem State.storeCmd_params (w : Word) : (s.storeCmd w).params = s.params := rfl
@[simp] theorem State.storeCmd_ibuf (w : Word) : (s.storeCmd w).ibuf = s.ibuf := rfl
@[simp] theorem State.storeCmd_obuf (w : Word) : (s.storeCmd w).obuf = s.obuf := rfl
@[simp] theorem State.storeCmd_pending (w : Word) : (s.storeCmd w).pending = s.pending := rfl
@[simp] theorem State.storeCmd_replies (w : Word) : (s.storeCmd w).replies = s.replies := rfl

/-! `LEN` (R13). -/

@[simp] theorem State.storeLen_cmd (w : Word) : (s.storeLen w).cmd = s.cmd := rfl
@[simp] theorem State.storeLen_status (w : Word) : (s.storeLen w).status = s.status := rfl
@[simp] theorem State.storeLen_len (w : Word) : (s.storeLen w).len = w := rfl
@[simp] theorem State.storeLen_ocap (w : Word) : (s.storeLen w).ocap = s.ocap := rfl
@[simp] theorem State.storeLen_result (w : Word) : (s.storeLen w).result = s.result := rfl
@[simp] theorem State.storeLen_epos (w : Word) : (s.storeLen w).epos = s.epos := rfl
@[simp] theorem State.storeLen_params (w : Word) : (s.storeLen w).params = s.params := rfl
@[simp] theorem State.storeLen_ibuf (w : Word) : (s.storeLen w).ibuf = s.ibuf := rfl
@[simp] theorem State.storeLen_obuf (w : Word) : (s.storeLen w).obuf = s.obuf := rfl
@[simp] theorem State.storeLen_pending (w : Word) : (s.storeLen w).pending = s.pending := rfl
@[simp] theorem State.storeLen_replies (w : Word) : (s.storeLen w).replies = s.replies := rfl

/-! `OCAP` (R14). -/

@[simp] theorem State.storeOcap_cmd (w : Word) : (s.storeOcap w).cmd = s.cmd := rfl
@[simp] theorem State.storeOcap_status (w : Word) : (s.storeOcap w).status = s.status := rfl
@[simp] theorem State.storeOcap_len (w : Word) : (s.storeOcap w).len = s.len := rfl
@[simp] theorem State.storeOcap_ocap (w : Word) : (s.storeOcap w).ocap = w := rfl
@[simp] theorem State.storeOcap_result (w : Word) : (s.storeOcap w).result = s.result := rfl
@[simp] theorem State.storeOcap_epos (w : Word) : (s.storeOcap w).epos = s.epos := rfl
@[simp] theorem State.storeOcap_params (w : Word) : (s.storeOcap w).params = s.params := rfl
@[simp] theorem State.storeOcap_ibuf (w : Word) : (s.storeOcap w).ibuf = s.ibuf := rfl
@[simp] theorem State.storeOcap_obuf (w : Word) : (s.storeOcap w).obuf = s.obuf := rfl
@[simp] theorem State.storeOcap_pending (w : Word) : (s.storeOcap w).pending = s.pending := rfl
@[simp] theorem State.storeOcap_replies (w : Word) : (s.storeOcap w).replies = s.replies := rfl

/-! `WriteIBUF` (20_memory.md R48). -/

@[simp] theorem State.hostWriteIbuf_cmd (i : Nat) (v : Byte) : (s.hostWriteIbuf i v).cmd = s.cmd := rfl
@[simp] theorem State.hostWriteIbuf_status (i : Nat) (v : Byte) : (s.hostWriteIbuf i v).status = s.status := rfl
@[simp] theorem State.hostWriteIbuf_len (i : Nat) (v : Byte) : (s.hostWriteIbuf i v).len = s.len := rfl
@[simp] theorem State.hostWriteIbuf_ocap (i : Nat) (v : Byte) : (s.hostWriteIbuf i v).ocap = s.ocap := rfl
@[simp] theorem State.hostWriteIbuf_result (i : Nat) (v : Byte) : (s.hostWriteIbuf i v).result = s.result := rfl
@[simp] theorem State.hostWriteIbuf_epos (i : Nat) (v : Byte) : (s.hostWriteIbuf i v).epos = s.epos := rfl
@[simp] theorem State.hostWriteIbuf_params (i : Nat) (v : Byte) : (s.hostWriteIbuf i v).params = s.params := rfl
@[simp] theorem State.hostWriteIbuf_ibuf (i : Nat) (v : Byte) : (s.hostWriteIbuf i v).ibuf = s.ibuf.write i v := rfl
@[simp] theorem State.hostWriteIbuf_obuf (i : Nat) (v : Byte) : (s.hostWriteIbuf i v).obuf = s.obuf := rfl
@[simp] theorem State.hostWriteIbuf_pending (i : Nat) (v : Byte) : (s.hostWriteIbuf i v).pending = s.pending := rfl
@[simp] theorem State.hostWriteIbuf_replies (i : Nat) (v : Byte) : (s.hostWriteIbuf i v).replies = s.replies := rfl

/-! `WriteOBUF` (R50). -/

@[simp] theorem State.hostWriteObuf_cmd (i : Nat) (v : Byte) : (s.hostWriteObuf i v).cmd = s.cmd := rfl
@[simp] theorem State.hostWriteObuf_status (i : Nat) (v : Byte) : (s.hostWriteObuf i v).status = s.status := rfl
@[simp] theorem State.hostWriteObuf_len (i : Nat) (v : Byte) : (s.hostWriteObuf i v).len = s.len := rfl
@[simp] theorem State.hostWriteObuf_ocap (i : Nat) (v : Byte) : (s.hostWriteObuf i v).ocap = s.ocap := rfl
@[simp] theorem State.hostWriteObuf_result (i : Nat) (v : Byte) : (s.hostWriteObuf i v).result = s.result := rfl
@[simp] theorem State.hostWriteObuf_epos (i : Nat) (v : Byte) : (s.hostWriteObuf i v).epos = s.epos := rfl
@[simp] theorem State.hostWriteObuf_params (i : Nat) (v : Byte) : (s.hostWriteObuf i v).params = s.params := rfl
@[simp] theorem State.hostWriteObuf_ibuf (i : Nat) (v : Byte) : (s.hostWriteObuf i v).ibuf = s.ibuf := rfl
@[simp] theorem State.hostWriteObuf_obuf (i : Nat) (v : Byte) : (s.hostWriteObuf i v).obuf = s.obuf.write i v := rfl
@[simp] theorem State.hostWriteObuf_pending (i : Nat) (v : Byte) : (s.hostWriteObuf i v).pending = s.pending := rfl
@[simp] theorem State.hostWriteObuf_replies (i : Nat) (v : Byte) : (s.hostWriteObuf i v).replies = s.replies := rfl

/-! A read returns a value (R47). -/

@[simp] theorem State.reply_cmd (r : Reply) : (s.reply r).cmd = s.cmd := rfl
@[simp] theorem State.reply_status (r : Reply) : (s.reply r).status = s.status := rfl
@[simp] theorem State.reply_len (r : Reply) : (s.reply r).len = s.len := rfl
@[simp] theorem State.reply_ocap (r : Reply) : (s.reply r).ocap = s.ocap := rfl
@[simp] theorem State.reply_result (r : Reply) : (s.reply r).result = s.result := rfl
@[simp] theorem State.reply_epos (r : Reply) : (s.reply r).epos = s.epos := rfl
@[simp] theorem State.reply_params (r : Reply) : (s.reply r).params = s.params := rfl
@[simp] theorem State.reply_ibuf (r : Reply) : (s.reply r).ibuf = s.ibuf := rfl
@[simp] theorem State.reply_obuf (r : Reply) : (s.reply r).obuf = s.obuf := rfl
@[simp] theorem State.reply_pending (r : Reply) : (s.reply r).pending = s.pending := rfl
@[simp] theorem State.reply_replies (r : Reply) : (s.reply r).replies = r :: s.replies := rfl

/-! The transactions still to come (log 1). -/

@[simp] theorem State.setPending_cmd (ts : List Transaction) : (s.setPending ts).cmd = s.cmd := rfl
@[simp] theorem State.setPending_status (ts : List Transaction) : (s.setPending ts).status = s.status := rfl
@[simp] theorem State.setPending_len (ts : List Transaction) : (s.setPending ts).len = s.len := rfl
@[simp] theorem State.setPending_ocap (ts : List Transaction) : (s.setPending ts).ocap = s.ocap := rfl
@[simp] theorem State.setPending_result (ts : List Transaction) : (s.setPending ts).result = s.result := rfl
@[simp] theorem State.setPending_epos (ts : List Transaction) : (s.setPending ts).epos = s.epos := rfl
@[simp] theorem State.setPending_params (ts : List Transaction) : (s.setPending ts).params = s.params := rfl
@[simp] theorem State.setPending_ibuf (ts : List Transaction) : (s.setPending ts).ibuf = s.ibuf := rfl
@[simp] theorem State.setPending_obuf (ts : List Transaction) : (s.setPending ts).obuf = s.obuf := rfl
@[simp] theorem State.setPending_pending (ts : List Transaction) : (s.setPending ts).pending = ts := rfl
@[simp] theorem State.setPending_replies (ts : List Transaction) : (s.setPending ts).replies = s.replies := rfl

/-! `Reset` (R51). -/

@[simp] theorem State.resetRegisters_cmd : (s.resetRegisters).cmd = 0 := rfl
@[simp] theorem State.resetRegisters_status : (s.resetRegisters).status = 0 := rfl
@[simp] theorem State.resetRegisters_len : (s.resetRegisters).len = 0 := rfl
@[simp] theorem State.resetRegisters_ocap : (s.resetRegisters).ocap = 0 := rfl
@[simp] theorem State.resetRegisters_result : (s.resetRegisters).result = 0 := rfl
@[simp] theorem State.resetRegisters_epos : (s.resetRegisters).epos = 0 := rfl
@[simp] theorem State.resetRegisters_params : (s.resetRegisters).params = s.params := rfl
@[simp] theorem State.resetRegisters_ibuf : (s.resetRegisters).ibuf = s.ibuf := rfl
@[simp] theorem State.resetRegisters_obuf : (s.resetRegisters).obuf = s.obuf := rfl
@[simp] theorem State.resetRegisters_pending : (s.resetRegisters).pending = s.pending := rfl
@[simp] theorem State.resetRegisters_replies : (s.resetRegisters).replies = s.replies := rfl

end Sys2Proof.Machine
end

