-- ==== Sys2Proof/Laws/Gearbox.lean ====
section
/-! SUPPORT. The gearbox formulas (30_encoding.md R58, R59) as arithmetic: every field is a quotient or a remainder. -/

namespace Sys2Proof.Machine

theorem or_eq_add_of_lt {a b : Nat} (i : Nat) (h : b < 2 ^ i) : a * 2 ^ i ||| b = a * 2 ^ i + b := by
  rw [← Nat.shiftLeft_eq, Nat.shiftLeft_add_eq_or_of_lt h]

theorem and_low_bits (a i : Nat) : a &&& (2 ^ i - 1) = a % 2 ^ i := Nat.and_two_pow_sub_one_eq_mod a i

theorem g34_fst (b0 b1 b2 : Byte) : (g34 b0 b1 b2).1.toNat = b0.toNat / 4 := by
  have := b0.isLt
  simp [g34, Nat.shiftRight_eq_div_pow]
  omega

theorem g34_snd (b0 b1 b2 : Byte) : (g34 b0 b1 b2).2.1.toNat = b0.toNat % 4 * 16 + b1.toNat / 16 := by
  have h1 := b1.isLt
  have ha := and_low_bits (b0.toNat % 64) 2
  have ho := or_eq_add_of_lt (a := b0.toNat % 4) (b := b1.toNat / 16) 4 (by omega)
  simp [g34, Nat.shiftRight_eq_div_pow, Nat.shiftLeft_eq]
  rw [show (b0.toNat % 64 &&& 3) * 16 % 64 = b0.toNat % 4 * 2 ^ 4 by norm_num at ha; omega,
    Nat.mod_eq_of_lt (by omega : b1.toNat / 16 < 64), ho]
  norm_num

theorem g34_third (b0 b1 b2 : Byte) : (g34 b0 b1 b2).2.2.1.toNat = b1.toNat % 16 * 4 + b2.toNat / 64 := by
  have h1 := b2.isLt
  have ha := and_low_bits (b1.toNat % 64) 4
  have ho := or_eq_add_of_lt (a := b1.toNat % 16) (b := b2.toNat / 64) 2 (by omega)
  simp [g34, Nat.shiftRight_eq_div_pow, Nat.shiftLeft_eq]
  rw [show (b1.toNat % 64 &&& 15) * 4 % 64 = b1.toNat % 16 * 2 ^ 2 by norm_num at ha; omega,
    Nat.mod_eq_of_lt (by omega : b2.toNat / 64 < 64), ho]
  norm_num

theorem g34_fourth (b0 b1 b2 : Byte) : (g34 b0 b1 b2).2.2.2.toNat = b2.toNat % 64 := by
  have ha := and_low_bits (b2.toNat % 64) 6
  simp [g34]
  norm_num at ha
  exact ha

theorem g43_fst (v0 v1 v2 v3 : Sextet) : (g43 v0 v1 v2 v3).1.toNat = v0.toNat * 4 + v1.toNat / 16 := by
  have h0 := v0.isLt
  have h1 := v1.isLt
  have ho := or_eq_add_of_lt (a := v0.toNat) (b := v1.toNat / 16) 2 (by omega)
  simp [g43, wide, trunc8, Nat.shiftRight_eq_div_pow, Nat.shiftLeft_eq]
  rw [show v0.toNat * 4 % 256 = v0.toNat * 2 ^ 2 by omega,
    show v1.toNat % 4096 / 16 % 256 = v1.toNat / 16 by omega, ho]
  norm_num

theorem g43_snd (v0 v1 v2 v3 : Sextet) : (g43 v0 v1 v2 v3).2.1.toNat = v1.toNat % 16 * 16 + v2.toNat / 4 := by
  have h1 := v1.isLt
  have h2 := v2.isLt
  have ho := or_eq_add_of_lt (a := v1.toNat % 16) (b := v2.toNat / 4) 4 (by omega)
  simp [g43, wide, trunc8, Nat.shiftRight_eq_div_pow, Nat.shiftLeft_eq]
  rw [show v1.toNat * 16 % 256 = v1.toNat % 16 * 2 ^ 4 by omega,
    show v2.toNat % 4096 / 4 % 256 = v2.toNat / 4 by omega, ho]
  norm_num

theorem g43_third (v0 v1 v2 v3 : Sextet) : (g43 v0 v1 v2 v3).2.2.toNat = v2.toNat % 4 * 64 + v3.toNat := by
  have h2 := v2.isLt
  have h3 := v3.isLt
  have ho := or_eq_add_of_lt (a := v2.toNat % 4) (b := v3.toNat) 6 (by omega)
  simp [g43, wide, trunc8, Nat.shiftLeft_eq]
  rw [show v2.toNat * 64 % 256 = v2.toNat % 4 * 2 ^ 6 by omega,
    show v3.toNat % 256 = v3.toNat by omega, ho]
  norm_num

end Sys2Proof.Machine
end

