-- ==== Sys2Proof/Laws/Tables.lean ====
section
/-! SUPPORT. Small facts of the tables (10_state.md R20 to R24), each by running through the 64 sextets or 256 bytes. -/

namespace Sys2Proof.Machine

@[simp] theorem alphaIndex_alpha (v : Variant) (x : Sextet) : alphaIndex v (alpha v x) = some x := by
  revert x; cases v <;> decide

theorem alpha_ne_pad (v : Variant) (x : Sextet) : alpha v x ≠ Config.pad := by
  revert x; cases v <;> decide

theorem alpha_of_alphaIndex (v : Variant) (c : Byte) : ∀ x ∈ alphaIndex v c, alpha v x = c := by
  revert c; cases v <;> decide

@[simp] theorem alphaIndex_pad (v : Variant) : alphaIndex v Config.pad = none := by
  cases v <;> decide

theorem rev_alpha_index (v : Variant) (x : Sextet) : rev v (alpha v x) = x := by simp [rev]

@[simp] theorem rev_pad (v : Variant) : rev v Config.pad = 0 := by simp [rev]

theorem valid_iff_exists (v : Variant) (c : Byte) : valid v c = true ↔ ∃ x : Sextet, alpha v x = c := by
  constructor
  · intro h
    obtain ⟨x, hx⟩ := Option.isSome_iff_exists.1 h
    exact ⟨x, alpha_of_alphaIndex v c x hx⟩
  · rintro ⟨x, rfl⟩
    simp [valid]

theorem alpha_rev_of_valid {v : Variant} {c : Byte} (h : valid v c = true) : alpha v (rev v c) = c := by
  obtain ⟨x, rfl⟩ := (valid_iff_exists v c).1 h
  rw [rev_alpha_index]

end Sys2Proof.Machine
end

