-- ==== Sys2Proof/Laws/Text.lean ====
section
/-! SUPPORT. The spec lemma of each text function: what `encText`, `decText` and `scan` give, by index. -/

namespace Sys2Proof.Machine

/-! The operands a command reads. -/

@[simp] theorem State.input_length (s : State) (n : Nat) : (s.input n).length = n := by simp [State.input]

theorem State.input_getD (s : State) {n a : Nat} (h : a < n) : (s.input n).getD a 0 = s.ibufAt a := by
  simp [State.input, List.getD, h]

/-! Encoding (41_encode.md). -/

theorem g34_window (b0 b1 b2 : Byte) (W : Nat) (hW : W = b0.toNat * 2 ^ 16 + b1.toNat * 2 ^ 8 + b2.toNat) :
    g34 b0 b1 b2 =
      (BitVec.ofNat 6 (W / 2 ^ 18), BitVec.ofNat 6 (W / 2 ^ 12), BitVec.ofNat 6 (W / 2 ^ 6), BitVec.ofNat 6 W) := by
  have h0 := b0.isLt
  have h1 := b1.isLt
  have h2 := b2.isLt
  refine Prod.ext ?_ (Prod.ext ?_ (Prod.ext ?_ ?_)) <;> apply BitVec.eq_of_toNat_eq
  · rw [g34_fst, BitVec.toNat_ofNat]; omega
  · rw [g34_snd, BitVec.toNat_ofNat]; omega
  · rw [g34_third, BitVec.toNat_ofNat]; omega
  · rw [g34_fourth, BitVec.toNat_ofNat]; omega

@[simp] theorem encFull_length (v : Variant) (b0 b1 b2 : Byte) : (encFull v b0 b1 b2).length = 4 := rfl

theorem encText_nil (v : Variant) : encText v [] = [] := rfl

/-- The driver takes one full block whatever follows it, since `encblk` of three bytes is `encfull` (R81, R85). -/
theorem encText_block (v : Variant) (b0 b1 b2 : Byte) (rest : List Byte) :
    encText v (b0 :: b1 :: b2 :: rest) = encFull v b0 b1 b2 ++ encText v rest := by
  cases rest with
  | nil => rfl
  | cons b r => rfl

theorem encText_length (v : Variant) : ∀ B : List Byte, (encText v B).length = enclen B.length
  | [] => rfl
  | [_] => by simp [encText, encBlk, enclen]
  | [_, _] => by simp [encText, encBlk, enclen]
  | b0 :: b1 :: b2 :: rest => by
    rw [encText_block, List.length_append, encFull_length, encText_length v rest]
    simp only [enclen, List.length_cons]
    omega

theorem encCharAt_congr {v : Variant} {B B' : Nat → Byte} {n : Nat} (h : ∀ a, a < n → B a = B' a) (k : Nat) :
    encCharAt v B n k = encCharAt v B' n k := by
  have hb : ∀ j, byteOrZero B n j = byteOrZero B' n j := fun j => by
    unfold byteOrZero
    split
    · rw [h j ‹_›]
    · rfl
  simp only [encCharAt, encWindow, hb]

theorem encCharAt_shift (v : Variant) (b0 b1 b2 : Byte) (r : List Byte) (k : Nat) :
    encCharAt v (fun a => (b0 :: b1 :: b2 :: r).getD a 0) (r.length + 3) (k + 4) =
      encCharAt v (fun a => r.getD a 0) r.length k := by
  have hq : (k + 4) / 4 = k / 4 + 1 := by omega
  have hr : (k + 4) % 4 = k % 4 := by omega
  have hb : ∀ j, byteOrZero (fun a => (b0 :: b1 :: b2 :: r).getD a 0) (r.length + 3) (j + 3) =
      byteOrZero (fun a => r.getD a 0) r.length j := fun j => by simp [byteOrZero]
  have hw : encWindow (fun a => (b0 :: b1 :: b2 :: r).getD a 0) (r.length + 3) (k / 4 + 1) =
      encWindow (fun a => r.getD a 0) r.length (k / 4) := by
    simp only [encWindow]
    rw [show 3 * (k / 4 + 1) = 3 * (k / 4) + 3 by omega,
      show 3 * (k / 4) + 3 + 1 = 3 * (k / 4) + 1 + 3 by omega,
      show 3 * (k / 4) + 3 + 2 = 3 * (k / 4) + 2 + 3 by omega, hb, hb, hb]
  simp only [encCharAt, hq, hr, hw]
  have : (r.length + 3 < 3 * (k / 4 + 1) + k % 4) = (r.length < 3 * (k / 4) + k % 4) := by
    apply propext; omega
  simp only [this]

/-- Every character of the driver's text, in closed form (R85). -/
theorem encText_getElem (v : Variant) : ∀ (B : List Byte) (k : Nat), k < enclen B.length →
    (encText v B)[k]? = some (encCharAt v (fun a => B.getD a 0) B.length k)
  | [], k, hk => by simp [enclen] at hk
  | [b0], k, hk => by
    have hg := g34_window b0 0 0 _ rfl
    simp only [enclen, List.length_cons, List.length_nil] at hk
    simp only [encText, encBlk, hg]
    interval_cases k <;> simp [encCharAt, encWindow, byteOrZero]
  | [b0, b1], k, hk => by
    have hg := g34_window b0 b1 0 _ rfl
    simp only [enclen, List.length_cons, List.length_nil] at hk
    simp only [encText, encBlk, hg]
    interval_cases k <;> simp [encCharAt, encWindow, byteOrZero]
  | b0 :: b1 :: b2 :: rest, k, hk => by
    have hg := g34_window b0 b1 b2 _ rfl
    rw [encText_block]
    by_cases h4 : k < 4
    · rw [List.getElem?_append_left (by simpa using h4)]
      simp only [encFull, hg]
      interval_cases k <;> simp [encCharAt, encWindow, byteOrZero]
    · obtain ⟨j, rfl⟩ : ∃ j, k = j + 4 := ⟨k - 4, by omega⟩
      rw [List.getElem?_append_right (by simp), encFull_length, Nat.add_sub_cancel,
        encText_getElem v rest j (by simp only [enclen, List.length_cons] at hk ⊢; omega)]
      exact congrArg some (encCharAt_shift v b0 b1 b2 rest j).symm

/-! Decoding (42_decode.md). -/

theorem g43_window (v0 v1 v2 v3 : Sextet) (W : Nat)
    (hW : W = v0.toNat * 2 ^ 18 + v1.toNat * 2 ^ 12 + v2.toNat * 2 ^ 6 + v3.toNat) :
    g43 v0 v1 v2 v3 = (BitVec.ofNat 8 (W / 2 ^ 16), BitVec.ofNat 8 (W / 2 ^ 8), BitVec.ofNat 8 W) := by
  have h0 := v0.isLt
  have h1 := v1.isLt
  have h2 := v2.isLt
  have h3 := v3.isLt
  refine Prod.ext ?_ (Prod.ext ?_ ?_) <;> apply BitVec.eq_of_toNat_eq
  · rw [g43_fst, BitVec.toNat_ofNat]; omega
  · rw [g43_snd, BitVec.toNat_ofNat]; omega
  · rw [g43_third, BitVec.toNat_ofNat]; omega

@[simp] theorem decFull_length (v : Variant) (c0 c1 c2 c3 : Byte) : (decFull v c0 c1 c2 c3).length = 3 := rfl

theorem decText_last (v : Variant) (c0 c1 c2 c3 : Byte) : decText v [c0, c1, c2, c3] = decBlk v c0 c1 c2 c3 := rfl

theorem decText_quantum (v : Variant) (c0 c1 c2 c3 d : Byte) (rest : List Byte) :
    decText v (c0 :: c1 :: c2 :: c3 :: d :: rest) = decFull v c0 c1 c2 c3 ++ decText v (d :: rest) := rfl

theorem textPads_congr {T T' : Nat → Byte} {L : Nat} (hL : 0 < L) (h : ∀ a, a < L → T a = T' a) :
    textPads T L = textPads T' L := by
  simp only [textPads, h (L - 2) (by omega), h (L - 1) (by omega)]

theorem textPads_le (T : Nat → Byte) (L : Nat) : textPads T L ≤ 2 := by
  unfold textPads
  split
  · omega
  · split <;> omega

theorem decByteAt_congr {v : Variant} {T T' : Nat → Byte} {L : Nat} (hL : L % 4 = 0) (h : ∀ a, a < L → T a = T' a)
    {k : Nat} (hk : k < 3 * (L / 4)) : decByteAt v T k = decByteAt v T' k := by
  have hq : k / 3 < L / 4 := by omega
  simp only [decByteAt, decWindow]
  rw [h (4 * (k / 3)) (by omega), h (4 * (k / 3) + 1) (by omega), h (4 * (k / 3) + 2) (by omega),
    h (4 * (k / 3) + 3) (by omega)]

/-- In the last quantum, a pad in the third place is followed by one in the fourth (R94, R100). -/
def lastQuantumOk (T : Nat → Byte) (L : Nat) : Prop := T (L - 2) = Config.pad → T (L - 1) = Config.pad

/-- `decblk` emits `3 - p` bytes, each in closed form (R100). -/
theorem decBlk_getElem (v : Variant) (c0 c1 c2 c3 : Byte) (hp : c2 = Config.pad → c3 = Config.pad) (k : Nat) :
    (decBlk v c0 c1 c2 c3).length = textBytes (fun a => [c0, c1, c2, c3].getD a 0) 4 ∧
    (k < textBytes (fun a => [c0, c1, c2, c3].getD a 0) 4 →
      (decBlk v c0 c1 c2 c3)[k]? = some (decByteAt v (fun a => [c0, c1, c2, c3].getD a 0) k)) := by
  have hg := g43_window (rev v c0) (rev v c1) (rev v c2) (rev v c3) _ rfl
  simp only [decBlk, hg, textBytes, textPads]
  by_cases h2 : c2 = Config.pad
  · have h3 := hp h2
    refine ⟨by simp [h2, h3], fun hk => ?_⟩
    simp [h2, h3] at hk
    subst hk
    simp [decByteAt, decWindow]
  · by_cases h3 : c3 = Config.pad
    · refine ⟨by simp [h2, h3], fun hk => ?_⟩
      simp [h2, h3] at hk
      interval_cases k <;> simp [decByteAt, decWindow, h2]
    · refine ⟨by simp [h2, h3], fun hk => ?_⟩
      simp [h2, h3] at hk
      interval_cases k <;> simp [decByteAt, decWindow, h2, h3]

/-- The driver's bytes, in closed form (R105). -/
theorem decText_getElem (v : Variant) : ∀ (T : List Byte), T.length % 4 = 0 → 0 < T.length →
    lastQuantumOk (fun a => T.getD a 0) T.length →
    (decText v T).length = textBytes (fun a => T.getD a 0) T.length ∧
    ∀ k, k < textBytes (fun a => T.getD a 0) T.length →
      (decText v T)[k]? = some (decByteAt v (fun a => T.getD a 0) k)
  | [], _, h0, _ => by simp at h0
  | [_], h, _, _ => by simp at h
  | [_, _], h, _, _ => by simp at h
  | [_, _, _], h, _, _ => by simp at h
  | [c0, c1, c2, c3], _, _, hp => by
    have hp' : c2 = Config.pad → c3 = Config.pad := by simpa [lastQuantumOk] using hp
    exact ⟨(decBlk_getElem v c0 c1 c2 c3 hp' 0).1, fun k => (decBlk_getElem v c0 c1 c2 c3 hp' k).2⟩
  | c0 :: c1 :: c2 :: c3 :: d :: rest, h, _, hp => by
    have hg := g43_window (rev v c0) (rev v c1) (rev v c2) (rev v c3) _ rfl
    have hl : (d :: rest).length % 4 = 0 := by simp only [List.length_cons] at h ⊢; omega
    have hl' : 4 ≤ (d :: rest).length := by simp only [List.length_cons] at hl ⊢; omega
    generalize d :: rest = r at *
    have hlen : (c0 :: c1 :: c2 :: c3 :: r).length = r.length + 4 := rfl
    have hget : ∀ a, (c0 :: c1 :: c2 :: c3 :: r).getD (a + 4) 0 = r.getD a 0 := fun a => by simp
    have hm2 : (c0 :: c1 :: c2 :: c3 :: r).getD (r.length + 4 - 2) 0 = r.getD (r.length - 2) 0 := by
      rw [show r.length + 4 - 2 = r.length - 2 + 4 by omega, hget]
    have hm1 : (c0 :: c1 :: c2 :: c3 :: r).getD (r.length + 4 - 1) 0 = r.getD (r.length - 1) 0 := by
      rw [show r.length + 4 - 1 = r.length - 1 + 4 by omega, hget]
    have hpads : textPads (fun a => (c0 :: c1 :: c2 :: c3 :: r).getD a 0) (r.length + 4) =
        textPads (fun a => r.getD a 0) r.length := by simp only [textPads, hm1, hm2]
    have hp' : lastQuantumOk (fun a => r.getD a 0) r.length := by
      simp only [lastQuantumOk, hlen, hm1, hm2] at hp ⊢; exact hp
    obtain ⟨ihl, ih⟩ := decText_getElem v r hl (by omega) hp'
    have hple := textPads_le (fun a => r.getD a 0) r.length
    have hbytes : textBytes (fun a => (c0 :: c1 :: c2 :: c3 :: r).getD a 0) (r.length + 4) =
        textBytes (fun a => r.getD a 0) r.length + 3 := by
      simp only [textBytes, hpads]; omega
    have hstep : decText v (c0 :: c1 :: c2 :: c3 :: r) = decFull v c0 c1 c2 c3 ++ decText v r := by
      cases r with
      | nil => simp at hl'
      | cons e r' => rfl
    rw [hlen, hbytes, hstep]
    refine ⟨by rw [List.length_append, decFull_length, ihl]; omega, fun k hk => ?_⟩
    by_cases h3 : k < 3
    · rw [List.getElem?_append_left (by simpa using h3)]
      simp only [decFull, hg]
      interval_cases k <;> simp [decByteAt, decWindow]
    · obtain ⟨j, rfl⟩ : ∃ j, k = j + 3 := ⟨k - 3, by omega⟩
      rw [List.getElem?_append_right (by simp), decFull_length, Nat.add_sub_cancel, ih j (by omega)]
      have hq : (j + 3) / 3 = j / 3 + 1 := by omega
      have hr : (j + 3) % 3 = j % 3 := by omega
      simp only [decByteAt, decWindow, hq, hr]
      rw [show 4 * (j / 3 + 1) = 4 * (j / 3) + 4 by omega,
        show 4 * (j / 3) + 4 + 1 = 4 * (j / 3) + 1 + 4 by omega,
        show 4 * (j / 3) + 4 + 2 = 4 * (j / 3) + 2 + 4 by omega,
        show 4 * (j / 3) + 4 + 3 = 4 * (j / 3) + 3 + 4 by omega, hget, hget, hget, hget]

/-! Validation (42_decode.md R93). -/

/-- What a scan's answer says about the text, by index. -/
def scanMeans (v : Variant) (T : Nat → Byte) (L i : Nat) : Scan → Prop
  | .ok => allAcceptable v T L
  | .badPad k => ∃ j, k = i + j ∧ firstOffender v T L j ∧ T j = Config.pad
  | .badChar k => ∃ j, k = i + j ∧ firstOffender v T L j ∧ T j ≠ Config.pad

theorem firstOffender_unique {v : Variant} {T : Nat → Byte} {L j k : Nat} (hj : firstOffender v T L j)
    (hk : firstOffender v T L k) : j = k := by
  rcases Nat.lt_trichotomy j k with h | h | h
  · exact absurd hj.2.1 (by have := hk.2.2 j h; tauto)
  · exact h
  · exact absurd hk.2.1 (by have := hj.2.2 k h; tauto)

theorem not_allAcceptable_of_firstOffender {v : Variant} {T : Nat → Byte} {L j : Nat}
    (hj : firstOffender v T L j) : ¬ allAcceptable v T L := fun h => by
  have := h j hj.1
  have := hj.2.1
  tauto

theorem firstOffender_congr {v : Variant} {T T' : Nat → Byte} {L j : Nat} (h : ∀ a, a < L → T a = T' a) :
    firstOffender v T L j → firstOffender v T' L j := by
  have hp : ∀ k, k < L → (badPadAt T L k ↔ badPadAt T' L k) := fun k hk => by
    simp only [badPadAt, h k hk, h (L - 1) (by omega)]
  have hc : ∀ k, k < L → (badCharAt v T k ↔ badCharAt v T' k) := fun k hk => by simp only [badCharAt, h k hk]
  rintro ⟨h1, h2, h3⟩
  refine ⟨h1, by rwa [← hp j h1, ← hc j h1], fun k hk => ?_⟩
  rw [← hp k (by omega), ← hc k (by omega)]
  exact h3 k hk

theorem allAcceptable_congr {v : Variant} {T T' : Nat → Byte} {L : Nat} (h : ∀ a, a < L → T a = T' a) :
    allAcceptable v T L → allAcceptable v T' L := fun hT k hk => by
  have := hT k hk
  simpa only [badPadAt, badCharAt, h k hk, h (L - 1) (by omega)] using this

theorem scanFrom_means (v : Variant) : ∀ (T : List Byte) (i : Nat),
    scanMeans v (fun a => T.getD a 0) T.length i (scanFrom v i T)
  | [], i => fun j hj => by simp at hj
  | c :: rest, i => by
    have ih := scanFrom_means v rest (i + 1)
    have hpad : ∀ j, j < rest.length → (badPadAt (fun a => (c :: rest).getD a 0) (rest.length + 1) (j + 1) ↔
        badPadAt (fun a => rest.getD a 0) rest.length j) := fun j hj => by
      have hz : (c :: rest).getD (rest.length + 1 - 1) 0 = rest.getD (rest.length - 1) 0 := by
        rw [show rest.length + 1 - 1 = rest.length - 1 + 1 by omega]; simp
      simp only [badPadAt, hz]
      rw [show (c :: rest).getD (j + 1) 0 = rest.getD j 0 by simp,
        show (j + 1 + 1 = rest.length + 1) = (j + 1 = rest.length) from propext (by omega),
        show (j + 1 + 2 = rest.length + 1) = (j + 2 = rest.length) from propext (by omega)]
    have hchr : ∀ j, badCharAt v (fun a => (c :: rest).getD a 0) (j + 1) ↔
        badCharAt v (fun a => rest.getD a 0) j := fun j => by simp [badCharAt]
    have h0 : ((classOf v c rest = .padOk ∨ classOf v c rest = .dataOk) →
          ¬ badPadAt (fun a => (c :: rest).getD a 0) (rest.length + 1) 0 ∧
          ¬ badCharAt v (fun a => (c :: rest).getD a 0) 0) ∧
        (classOf v c rest = .badPad → c = Config.pad ∧ badPadAt (fun a => (c :: rest).getD a 0) (rest.length + 1) 0) ∧
        (classOf v c rest = .badChar → c ≠ Config.pad ∧ badCharAt v (fun a => (c :: rest).getD a 0) 0) := by
      simp only [classOf, badPadAt, badCharAt, inAlphabet, ← valid_iff_exists]
      by_cases hc : c = Config.pad
      · match rest with
        | [] => simp [hc]
        | [d] => by_cases hd : d = Config.pad <;> simp [hc, hd]
        | _ :: _ :: _ => simp [hc]
      · cases hv : valid v c <;> simp [hc, hv]
    have hcons : ∀ j, firstOffender v (fun a => rest.getD a 0) rest.length j →
        (¬ badPadAt (fun a => (c :: rest).getD a 0) (rest.length + 1) 0 ∧
          ¬ badCharAt v (fun a => (c :: rest).getD a 0) 0) →
        firstOffender v (fun a => (c :: rest).getD a 0) (rest.length + 1) (j + 1) := by
      rintro j ⟨h1, h2, h3⟩ hz
      refine ⟨by omega, by rwa [hpad j h1, hchr], fun k hk => ?_⟩
      cases k with
      | zero => exact hz
      | succ k => rw [hpad k (by omega), hchr]; exact h3 k (by omega)
    have hbad0 : (badPadAt (fun a => (c :: rest).getD a 0) (rest.length + 1) 0 ∨
          badCharAt v (fun a => (c :: rest).getD a 0) 0) →
        firstOffender v (fun a => (c :: rest).getD a 0) (rest.length + 1) 0 := fun h =>
      ⟨by omega, h, fun k hk => absurd hk (by omega)⟩
    have hgood : (¬ badPadAt (fun a => (c :: rest).getD a 0) (rest.length + 1) 0 ∧
          ¬ badCharAt v (fun a => (c :: rest).getD a 0) 0) →
        scanMeans v (fun a => (c :: rest).getD a 0) (rest.length + 1) i (scanFrom v (i + 1) rest) := fun hz => by
      cases hs : scanFrom v (i + 1) rest with
      | ok =>
        rw [hs] at ih
        intro j hj
        cases j with
        | zero => exact hz
        | succ j => rw [hpad j (by omega), hchr]; exact ih j (by omega)
      | badPad k =>
        rw [hs] at ih
        obtain ⟨j, hk, hf, hT⟩ := ih
        exact ⟨j + 1, by omega, hcons j hf hz, by simpa using hT⟩
      | badChar k =>
        rw [hs] at ih
        obtain ⟨j, hk, hf, hT⟩ := ih
        exact ⟨j + 1, by omega, hcons j hf hz, by simpa using hT⟩
    simp only [scanFrom, List.length_cons]
    cases hcl : classOf v c rest with
    | padOk => exact hgood (h0.1 (.inl hcl))
    | dataOk => exact hgood (h0.1 (.inr hcl))
    | badPad => exact ⟨0, by omega, hbad0 (.inl (h0.2.1 hcl).2), by simpa using (h0.2.1 hcl).1⟩
    | badChar => exact ⟨0, by omega, hbad0 (.inr (h0.2.2 hcl).2), by simpa using (h0.2.2 hcl).1⟩

/-- What the scan of `IBUF[0 .. L-1]` says about the buffer (R93). -/
theorem scan_input_means (v : Variant) (s : State) (L : Nat) :
    scanMeans v s.ibufAt L 0 (scan v (s.input L)) := by
  have h := scanFrom_means v (s.input L) 0
  have hT : ∀ a, a < L → (s.input L).getD a 0 = s.ibufAt a := fun a ha => s.input_getD ha
  rw [State.input_length] at h
  unfold scan
  cases hs : scanFrom v 0 (s.input L) with
  | ok => rw [hs] at h; exact allAcceptable_congr hT h
  | badPad k =>
    rw [hs] at h
    obtain ⟨j, hk, hf, hp⟩ := h
    exact ⟨j, hk, firstOffender_congr hT hf, by rw [← hT j hf.1]; exact hp⟩
  | badChar k =>
    rw [hs] at h
    obtain ⟨j, hk, hf, hp⟩ := h
    exact ⟨j, hk, firstOffender_congr hT hf, by rw [← hT j hf.1]; exact hp⟩

theorem lastQuantumOk_of_allAcceptable {v : Variant} {T : Nat → Byte} {L : Nat} (hL : 2 ≤ L)
    (h : allAcceptable v T L) : lastQuantumOk T L := fun hp => by
  by_contra hz
  refine (h (L - 2) (by omega)).1 ⟨hp, ?_⟩
  rintro (h1 | ⟨-, h1⟩)
  · omega
  · exact hz h1

theorem State.declen_eq (s : State) (L : Nat) : s.declen L = textBytes s.ibufAt L := by
  unfold State.declen textBytes textPads padCount
  by_cases h1 : s.ibufAt (L - 1) = Config.pad <;> by_cases h2 : s.ibufAt (L - 2) = Config.pad <;> simp [h1, h2]

end Sys2Proof.Machine
end

