-- ==== Sys2Proof/Laws/Exec.lean ====
section
/-! SUPPORT. Said once: everything a command can do, and everything a step can do. Later proofs cite these instead of
unfolding the meanings or the step. -/

namespace Sys2Proof.Machine

@[simp] theorem exec_enclen (s : State) : exec .enclen s = execEnclen s := rfl
@[simp] theorem exec_enc (s : State) : exec .enc s = execEnc s := rfl
@[simp] theorem exec_encblk (s : State) : exec .encblk s = execEncblk s := rfl
@[simp] theorem exec_declen (s : State) : exec .declen s = execDeclen s := rfl
@[simp] theorem exec_dec (s : State) : exec .dec s = execDec s := rfl
@[simp] theorem exec_decblk (s : State) : exec .decblk s = execDecblk s := rfl

/-- The `STATUS` words, by code (R116, R117). -/
@[simp] theorem statusWord_ok : statusWord .ok = 0x01#32 := by decide
@[simp] theorem statusWord_cmd : statusWord .cmd = 0x11#32 := by decide
@[simp] theorem statusWord_length : statusWord .length = 0x21#32 := by decide
@[simp] theorem statusWord_char : statusWord .char = 0x31#32 := by decide
@[simp] theorem statusWord_pad : statusWord .pad = 0x41#32 := by decide
@[simp] theorem statusWord_bufsz : statusWord .bufsz = 0x51#32 := by decide

/-- What a command's outcome can be: an error with its position, a length, or output with a terminator. -/
inductive Ends (i : Instr) (s : State) : State → Prop where
  /-- An error the command can end with (R117, R120); a position is an index of the text (R111). -/
  | error (e : ErrCode) (pos : Nat) (he : e ≠ .ok) (hm : mayEnd i e = true)
      (hp : pos ≠ 0 → (e = .char ∨ e = .pad) ∧ pos < s.params.maxLen) : Ends i s (s.raise e pos)
  /-- A length command's success: it writes no buffer (R36). -/
  | size (r : Nat) (ht : transcodes i = false) (hr : r ≤ enclen s.params.maxLen) : Ends i s (s.complete r)
  /-- A transcoding command's success: `r` bytes and the terminator, all below `OCAP` (R36). -/
  | output (bytes : List Byte) (r : Nat) (ht : transcodes i = true) (hl : bytes.length = r)
      (hc : r + 1 ≤ s.ocap.toNat) (hr : r ≤ enclen s.params.maxLen ∨ r ≤ 4) : Ends i s (s.deliver bytes r)

theorem Ends.lengthError (i : Instr) (s : State) : Ends i s (s.raise .length 0) :=
  .error _ _ (by decide) (by cases i <;> rfl) (fun h => absurd rfl h)

theorem enclen_mono {a b : Nat} (h : a ≤ b) : enclen a ≤ enclen b := by unfold enclen; omega

theorem le_enclen (a : Nat) : a ≤ enclen a := by unfold enclen; omega

theorem encBlk_length (v : Variant) {l : List Byte} (h1 : 1 ≤ l.length) (h3 : l.length ≤ 3) :
    (encBlk v l).length = 4 := by
  match l with
  | [] => simp at h1
  | [_] => simp [encBlk]
  | [_, _] => simp [encBlk]
  | [_, _, _] => simp [encBlk]
  | _ :: _ :: _ :: _ :: _ =>
    simp only [List.length_cons] at h3
    omega

theorem execEnclen_ends (s : State) : ∃ t, execEnclen s = .next t ∧ Ends .enclen s t := by
  unfold execEnclen
  split
  · exact ⟨_, rfl, .lengthError _ s⟩
  · exact ⟨_, rfl, .size _ rfl (enclen_mono (by omega))⟩

theorem execDeclen_ends (s : State) : ∃ t, execDeclen s = .next t ∧ Ends .declen s t := by
  unfold execDeclen
  dsimp only
  split
  · exact ⟨_, rfl, .lengthError _ s⟩
  split
  · exact ⟨_, rfl, .lengthError _ s⟩
  split
  · exact ⟨_, rfl, .error _ _ (by decide) rfl fun _ => ⟨.inr rfl, by omega⟩⟩
  · refine ⟨_, rfl, .size _ rfl ?_⟩
    have := le_enclen s.params.maxLen
    unfold State.declen
    omega

theorem execEncblk_ends (s : State) : ∃ t, execEncblk s = .next t ∧ Ends .encblk s t := by
  unfold execEncblk
  dsimp only
  split
  · exact ⟨_, rfl, .lengthError _ s⟩
  split
  · exact ⟨_, rfl, .lengthError _ s⟩
  split
  · exact ⟨_, rfl, .error _ _ (by decide) rfl fun h => absurd rfl h⟩
  · rename_i h1 h2 h3
    refine ⟨_, rfl, .output _ _ rfl (encBlk_length _ ?_ ?_) ?_ (.inr (Nat.le_refl 4))⟩
    · rw [State.input_length]; omega
    · rw [State.input_length]; omega
    · unfold State.capOperand at h3; omega

theorem execEnc_ends (s : State) : ∃ t, execEnc s = .next t ∧ Ends .enc s t := by
  unfold execEnc
  dsimp only
  split
  · exact ⟨_, rfl, .lengthError _ s⟩
  split
  · exact ⟨_, rfl, .error _ _ (by decide) rfl fun h => absurd rfl h⟩
  · rename_i h1 h2
    refine ⟨_, rfl, .output _ _ rfl ?_ ?_ (.inl (enclen_mono (by omega)))⟩
    · rw [encText_length, State.input_length]
    · unfold State.capOperand at h2; omega

/-- The text of the last quantum is `IBUF[0 .. 3]` as a list (R103). -/
theorem State.input_four (s : State) : s.input 4 = [s.ibufAt 0, s.ibufAt 1, s.ibufAt 2, s.ibufAt 3] := rfl

theorem decBlk_length_of_acceptable {s : State} {v : Variant} (h : allAcceptable v s.ibufAt 4) :
    (decBlk v (s.ibufAt 0) (s.ibufAt 1) (s.ibufAt 2) (s.ibufAt 3)).length = textBytes s.ibufAt 4 :=
  (decBlk_getElem v _ _ _ _ (lastQuantumOk_of_allAcceptable (by omega) h) 0).1

theorem three_sub_padCount (s : State) : 3 - padCount (s.ibufAt 2) (s.ibufAt 3) = textBytes s.ibufAt 4 := by
  have := s.declen_eq 4
  simpa [State.declen] using this

theorem textBytes_le (T : Nat → Byte) (L : Nat) : textBytes T L ≤ L := by unfold textBytes; omega

theorem execDecblk_ends (s : State) : ∃ t, execDecblk s = .next t ∧ Ends .decblk s t := by
  have hs := scan_input_means s.params.variant s 4
  unfold execDecblk
  dsimp only
  split
  · exact ⟨_, rfl, .lengthError _ s⟩
  split
  · exact ⟨_, rfl, .lengthError _ s⟩
  rename_i h1 h2
  cases hsc : scan s.params.variant (s.input 4) with
  | badChar k =>
    rw [hsc] at hs
    obtain ⟨j, rfl, hf, -⟩ := hs
    exact ⟨_, rfl, .error _ _ (by decide) rfl fun _ => ⟨.inl rfl, by have := hf.1; omega⟩⟩
  | badPad k =>
    rw [hsc] at hs
    obtain ⟨j, rfl, hf, -⟩ := hs
    exact ⟨_, rfl, .error _ _ (by decide) rfl fun _ => ⟨.inr rfl, by have := hf.1; omega⟩⟩
  | ok =>
    rw [hsc] at hs
    simp only
    split
    · exact ⟨_, rfl, .error _ _ (by decide) rfl fun h => absurd rfl h⟩
    · rename_i h3
      refine ⟨_, rfl, .output _ _ rfl ?_ ?_ (.inr (by omega))⟩
      · rw [three_sub_padCount, decBlk_length_of_acceptable hs]
      · unfold State.capOperand at h3; omega

theorem decText_length_of_acceptable {s : State} {v : Variant} {L : Nat} (h4 : L % 4 = 0) (h0 : 0 < L)
    (h : allAcceptable v s.ibufAt L) : (decText v (s.input L)).length = textBytes s.ibufAt L := by
  have hT : ∀ a, a < L → (s.input L).getD a 0 = s.ibufAt a := fun a ha => s.input_getD ha
  have hq := lastQuantumOk_of_allAcceptable (by omega) h
  have := (decText_getElem v (s.input L) (by rw [State.input_length]; exact h4)
    (by rw [State.input_length]; exact h0)
    (by rw [State.input_length]; simp only [lastQuantumOk, hT (L - 2) (by omega), hT (L - 1) (by omega)]; exact hq)).1
  rw [State.input_length] at this
  rw [this, textBytes, textBytes, textPads_congr h0 hT]

theorem execDec_ends (s : State) : ∃ t, execDec s = .next t ∧ Ends .dec s t := by
  have hs := scan_input_means s.params.variant s s.lenOperand
  unfold execDec
  dsimp only
  split
  · exact ⟨_, rfl, .lengthError _ s⟩
  split
  · exact ⟨_, rfl, .lengthError _ s⟩
  split
  · split
    · exact ⟨_, rfl, .error _ _ (by decide) rfl fun h => absurd rfl h⟩
    · rename_i h
      exact ⟨_, rfl, .output [] 0 rfl rfl (by unfold State.capOperand at h; omega) (.inr (by omega))⟩
  rename_i h1 h2 h3
  cases hsc : scan s.params.variant (s.input s.lenOperand) with
  | badChar k =>
    rw [hsc] at hs
    obtain ⟨j, rfl, hf, -⟩ := hs
    exact ⟨_, rfl, .error _ _ (by decide) rfl fun _ => ⟨.inl rfl, by have := hf.1; omega⟩⟩
  | badPad k =>
    rw [hsc] at hs
    obtain ⟨j, rfl, hf, -⟩ := hs
    exact ⟨_, rfl, .error _ _ (by decide) rfl fun _ => ⟨.inr rfl, by have := hf.1; omega⟩⟩
  | ok =>
    rw [hsc] at hs
    simp only
    split
    · exact ⟨_, rfl, .error _ _ (by decide) rfl fun h => absurd rfl h⟩
    · rename_i h4
      have hle := textBytes_le s.ibufAt s.lenOperand
      have hml := le_enclen s.params.maxLen
      refine ⟨_, rfl, .output _ _ rfl ?_ ?_ (.inl ?_)⟩
      · rw [State.declen_eq, decText_length_of_acceptable (by omega) (by omega) hs]
      · unfold State.capOperand at h4; omega
      · rw [State.declen_eq]; omega

/-- Every command, from every state, answers a next state, and it is one of the three kinds. -/
theorem exec_ends (i : Instr) (s : State) : ∃ t, exec i s = .next t ∧ Ends i s t := by
  cases i with
  | enclen => exact execEnclen_ends s
  | enc => exact execEnc_ends s
  | encblk => exact execEncblk_ends s
  | declen => exact execDeclen_ends s
  | dec => exact execDec_ends s
  | decblk => exact execDecblk_ends s

theorem ends_of_exec {i : Instr} {s t : State} (h : exec i s = .next t) : Ends i s t := by
  obtain ⟨t', ht', he⟩ := exec_ends i s
  rw [ht'] at h
  cases h
  exact he

/-- What the host reads of `OBUF` after a transcoding command delivered its output (R36, R137). -/
theorem State.deliver_obufAt (s : State) (bytes : List Byte) (r a : Nat) :
    (s.deliver bytes r).obufAt a = ((bytes ++ [Config.term])[a]?).getD (s.obufAt a) := by
  simp only [State.obufAt, State.deliver_obuf, Memory.byteAt_writeAll]

/-- One step with a transaction pending: the cases of R46 to R51. -/
theorem step_pending {s : State} {t : Transaction} {rest : List Transaction} (h : s.pending = t :: rest) :
    step s = match receive t (s.setPending rest) with
      | .settled o => o
      | .command w s' =>
        match decode w with
        | .ok i => exec i s'
        | .error _ => .next s'.illegalWord := by
  have ha : accept s = receive t (s.setPending rest) := by simp only [accept, h]
  unfold step
  generalize accept s = a at ha
  subst ha
  rfl

end Sys2Proof.Machine
end

