-- ==== Sys2Proof/Laws/PerInstr.lean ====
section
/-! SUPPORT. Statements made once per command, about the command as syntax. -/

namespace Sys2Proof.Laws.LegalWord

/-- The command's word obeys R54: `RSV` is zero and `FN` is not; its fields are those of its row. -/
def Statement (i : Instr) : Prop :=
  rsvField (encode i) = 0 ∧ dirField (encode i) = dirOf i ∧ fnField (encode i) = fnOf i ∧ fnOf i ≠ 0

theorem enclen : Statement .enclen := by simp only [Statement]; decide
theorem enc : Statement .enc := by simp only [Statement]; decide
theorem encblk : Statement .encblk := by simp only [Statement]; decide
theorem declen : Statement .declen := by simp only [Statement]; decide
theorem dec : Statement .dec := by simp only [Statement]; decide
theorem decblk : Statement .decblk := by simp only [Statement]; decide

end Sys2Proof.Laws.LegalWord
end

