-- ==== Sys2Proof/Tests/Slice0.lean ====
section
/-! SUPPORT. Small tests. Expected values are the vectors of 95_test_vectors.md (the row id stands beside each) or the
rule named; the last part shows, for each statement with hypotheses, inputs that meet them. -/

namespace Sys2Proof.Tests
open Sys2Proof.Machine

/-- A machine with `MAXLEN = 65535`, the bytes `input` in `IBUF` from index 0, and the operands given. -/
def bench (v : Variant) (input : List Byte) (len cap : Word) : State :=
  { State.reset with params := ⟨v, 65535⟩, len := len, ocap := cap, ibuf := input.zipIdx.map fun p => (p.2, p.1) }

/-- A reset machine with transactions lined up. -/
def queued (ts : List Transaction) : State := { State.reset with pending := ts }

/-- `STATUS`, `RESULT`, `EPOS` and the written bytes of `OBUF` after a step or a command. -/
def got : Result → Option (Word × Word × Word × List Byte)
  | .next t => some (t.status, t.result, t.epos, t.obuf.map Prod.snd)
  | _ => none

/-! ## The command word, written out from 30_encoding.md R53, R54: RSV, DIR, FN -/

theorem test_decode_enclen : decode 0b00000000000000000000000000000001#32 = .ok .enclen := rfl
theorem test_decode_enc : decode 0b00000000000000000000000000000010#32 = .ok .enc := rfl
theorem test_decode_encblk : decode 0b00000000000000000000000000000011#32 = .ok .encblk := rfl
theorem test_decode_declen : decode 0b00000000000000000000000000000101#32 = .ok .declen := rfl
theorem test_decode_dec : decode 0b00000000000000000000000000000110#32 = .ok .dec := rfl
theorem test_decode_decblk : decode 0b00000000000000000000000000000111#32 = .ok .decblk := rfl
/-- Rows IW1, IW2, IW4, IW7. -/
theorem test_decode_illegal :
    decode 0x00000000#32 = .error .reservedFunction ∧ decode 0x00000004#32 = .error .reservedFunction ∧
    decode 0x00000009#32 = .error .reservedBits ∧ decode 0xFFFFFFFF#32 = .error .reservedBits := ⟨rfl, rfl, rfl, rfl⟩
theorem test_table_word : decodeTableWord 32 6 = some .dec ∧ decodeTableWord 32 0x0E = none := ⟨rfl, rfl⟩
/-- The word placed by `withFetchWord` is the one the next step runs: RS5, from reset. -/
theorem test_fetch_word : got (step (State.reset.withFetchWord 32 6)) = some (0x51, 0, 0, []) := by decide

/-! ## Well-formedness: each check refuses an ill-formed term -/

theorem test_wf_commands : Instr.all.all Instr.wf = true := by decide
/-- R5: 1336 is the least `MAXLEN`, `2^31 - 1` the largest. -/
theorem test_wf_params : ¬ Params.wf ⟨.standard, 1335⟩ ∧ ¬ Params.wf ⟨.urlSafe, 2 ^ 31⟩ ∧
    Params.wf ⟨.standard, 1336⟩ ∧ Params.wf ⟨.urlSafe, 2 ^ 31 - 1⟩ := by decide
/-- R38: register accesses are aligned words. -/
theorem test_wf_transaction : (Transaction.writeReg 0x0A 1).wf = false ∧ (Transaction.readReg 0x03).wf = false ∧
    (Transaction.writeReg 0x08 1).wf = true := by decide
/-- U13: and an ill-formed one is refused by name. -/
theorem test_misaligned_refused : step (queued [.writeReg 0x0A 1]) = .refused (.misalignedRegisterAccess 0x0A) := rfl

/-! ## The commands -/

/-- EL9. -/
theorem test_enclen_1001 : got (exec .enclen (bench .standard [] 1001 0)) = some (0x01, 1336, 0, []) := by decide
/-- EL13. -/
theorem test_enclen_over : got (exec .enclen (bench .standard [] 65536 0)) = some (0x21, 0, 0, []) := by decide
/-- EN24 (two passes, then one byte). -/
theorem test_enc_two_passes :
    got (exec .enc (bench .standard [0x14, 0xFB, 0x9C, 0x03, 0xD9, 0x7E, 0x2A] 7 13)) =
      some (0x01, 12, 0, [0x46, 0x50, 0x75, 0x63, 0x41, 0x39, 0x6C, 0x2B, 0x4B, 0x67, 0x3D, 0x3D, 0x00]) := by
  decide +kernel
/-- EN16 (the other variant's symbols). -/
theorem test_enc_urlsafe : got (exec .enc (bench .urlSafe [0xFB, 0xFF] 2 5)) =
    some (0x01, 4, 0, [0x2D, 0x5F, 0x38, 0x3D, 0x00]) := by decide +kernel
/-- EB15 (absent bytes are zero, not read). -/
theorem test_encblk_absent : got (exec .encblk (bench .standard [0x66, 0xFF, 0xFF] 1 5)) =
    some (0x01, 4, 0, [0x5A, 0x67, 0x3D, 0x3D, 0x00]) := by decide +kernel
/-- EB16 (ERR_LENGTH before ERR_BUFSZ). -/
theorem test_encblk_long : got (exec .encblk (bench .standard [] 4 0)) = some (0x21, 0, 0, []) := by decide
/-- DL5. -/
theorem test_declen_one_pad :
    got (exec .declen (bench .standard [0x5A, 0x6D, 0x39, 0x76, 0x59, 0x6D, 0x45, 0x3D] 8 0)) =
      some (0x01, 5, 0, []) := by decide +kernel
/-- DL10. -/
theorem test_declen_bad_pad :
    got (exec .declen (bench .standard [0x5A, 0x6D, 0x39, 0x76, 0x59, 0x67, 0x3D, 0x0A] 8 0)) =
      some (0x41, 0, 6, []) := by decide +kernel
/-- DE17. -/
theorem test_dec_two_quanta :
    got (exec .dec (bench .standard [0x46, 0x50, 0x75, 0x63, 0x41, 0x39, 0x6C, 0x2B] 8 7)) =
      some (0x01, 6, 0, [0x14, 0xFB, 0x9C, 0x03, 0xD9, 0x7E, 0x00]) := by decide +kernel
/-- DE35 (the lower index wins). -/
theorem test_dec_first_offender : got (exec .dec (bench .standard [0x5A, 0x21, 0x3D, 0x61] 4 9)) =
    some (0x31, 0, 1, []) := by decide +kernel
/-- DB4 (`A` is data). -/
theorem test_decblk_zero_data : got (exec .decblk (bench .standard [0x41, 0x41, 0x41, 0x41] 4 4)) =
    some (0x01, 3, 0, [0x00, 0x00, 0x00, 0x00]) := by decide +kernel
/-- DB8. -/
theorem test_decblk_bad_pad : got (exec .decblk (bench .standard [0x41, 0x41, 0x3D, 0x41] 4 4)) =
    some (0x41, 0, 2, []) := by decide +kernel
/-- GB9, both ways. -/
theorem test_gearbox : g34 0x14 0xFB 0x9C = (5, 15, 46, 28) ∧ g43 5 15 46 28 = (0x14, 0xFB, 0x9C) := by decide

/-! ## The transactions -/

/-- IW5. -/
theorem test_illegal_word : got (step (queued [.writeReg 0x00 0x0000000E])) = some (0x11, 0, 0, []) := by decide
/-- RS8, RS9: a read-only and a reserved offset ignore a write. -/
theorem test_ignored_writes : step (queued [.writeReg 0x04 0xFFFFFFFF]) = .next State.reset ∧
    step (queued [.writeReg 0x20 1]) = .next State.reset := ⟨rfl, rfl⟩
/-- P4: `CFG` reads 1 on a UrlSafe device. -/
theorem test_read_cfg : (bench .urlSafe [] 0 0).regAt 0x18 = 1 ∧ (bench .urlSafe [] 0 0).regAt 0x1C = 65535 := by decide
/-- R48: a store between two written bytes keeps the indices rising. -/
theorem test_write_between : Memory.write [(1, 0xAA#8), (5, 0xBB#8)] 3 0xCC#8 =
    [(1, 0xAA#8), (3, 0xCC#8), (5, 0xBB#8)] := by decide
/-- R66: `EncodeLength(4)` up to its `STATUS` read. -/
theorem test_call_encode_length :
    callEncodeLength 4 = [.writeReg 0x08 4, .writeReg 0x00 1, .readReg 0x04] := by decide
/-- R65: `STATUS = 0x31` names the invalid-character error, and no size is returned. -/
theorem test_returned_status : returnedStatus { State.reset with status := 0x31 } = some .char ∧
    returnedSize { State.reset with status := 0x31 } = none := by decide

/-! ## Witnesses: inputs that meet the hypotheses of each statement, clause by clause, at the ends of its ranges -/

theorem witness_StepRunsTheDecodedCommand :
    (queued [.writeReg 0x00 7]).pending = [.writeReg 0x00 7] ∧ Instr.decblk.wf = true ∧ decode 7 = .ok .decblk :=
  ⟨rfl, rfl, rfl⟩
theorem witness_IllegalWordEndsWithErrCmd :
    (queued [.writeReg 0x00 8]).pending = [.writeReg 0x00 8] ∧ (8 : Word).extractLsb 31 3 ≠ 0 ∧
    (4 : Word).extractLsb 31 3 = 0 ∧ (4 : Word).extractLsb 1 0 = 0 := by decide
theorem witness_RegisterWriteEffects :
    ([0x00, 0x08, 0x0C, 0x04, 0x1C, 0x20, 0xFFFFFFFC] : List Word).all (fun off => off.toNat % 4 == 0) = true ∧
    (queued [.writeReg 0x20 1]).pending = [.writeReg 0x20 1] ∧ encode .enclen = 1 ∧
    ∀ i ∈ Instr.all, encode i ≠ 0 := by decide
theorem witness_RegisterReadReturnsTheValue :
    (queued [.readReg 0x1C]).pending = [.readReg 0x1C] ∧
    ([0x00, 0x04, 0x08, 0x0C, 0x10, 0x14, 0x18, 0x1C, 0x20, 0xFFFFFFFC] : List Word).all
      (fun off => off.toNat % 4 == 0) = true ∧ 0x20 ≤ (0x20 : Word).toNat := by decide
theorem witness_InputBufferTransactions :
    (queued [.writeIbuf 0xFFFFFFFF 1]).pending = [.writeIbuf 0xFFFFFFFF 1] ∧
    (queued [.readIbuf 0]).pending = [.readIbuf 0] := ⟨rfl, rfl⟩
theorem witness_OutputBufferTransactions :
    (queued [.writeObuf 0xFFFFFFFF 1]).pending = [.writeObuf 0xFFFFFFFF 1] ∧
    (queued [.readObuf 0]).pending = [.readObuf 0] := ⟨rfl, rfl⟩
/-- The inner hypothesis of the second clause: `"="` stands in neither alphabet. -/
theorem witness_ReverseTableInvertsTheAlphabet : ∀ x : Sextet, alpha .standard x ≠ 0x3D ∧ alpha .urlSafe x ≠ 0x3D := by
  decide
theorem witness_ResetClearsTheSixRegistersOnly : (queued [.reset]).pending = [.reset] := rfl
theorem witness_OnlyMisalignedRegisterAccessIsRefused :
    step (queued [.readReg 0x21]) = .refused (.misalignedRegisterAccess 0x21) ∧ (queued []).pending = [] := ⟨rfl, rfl⟩
theorem witness_EachPartChangesOnlyByItsOwnTransactions :
    ∃ u, step (queued [.writeReg 0x08 4]) = .next u ∧ u.len ≠ (queued [.writeReg 0x08 4]).len := ⟨_, rfl, by decide⟩
/-- A state other than the reset state that meets the invariant, and steps: `ENCLEN` of `LEN = 4` has completed. -/
def encodedFour : State :=
  { queued [.writeReg 0x00 1] with cmd := 1, status := 0x01, len := 4, result := 8 }
theorem witness_StepKeepsTheMachineInvariant :
    encodedFour.Inv ∧ ∃ u, step encodedFour = .next u := by
  refine ⟨⟨by decide, by decide, by decide, .inr ⟨.ok, rfl⟩, fun h => absurd h (by decide), fun _ => ?_,
    fun _ i _ => ⟨.ok, by cases i <;> rfl, rfl⟩, fun h => absurd rfl h, by decide, fun h => absurd rfl h⟩, _, rfl⟩
  exact ⟨fun h => absurd h (by decide), fun h => absurd rfl (h .enclen)⟩
theorem witness_AlignedTransactionsRunToTheEnd :
    ∀ t ∈ (queued [.writeReg 0x08 3, .writeReg 0x00 1, .readReg 0x10, .reset]).pending, t.wf = true := by decide
theorem witness_EnclenComputesTheTextLength :
    (bench .standard [] 65535 0).params.wf ∧ (bench .standard [] 65536 0).params.maxLen < (65536 : Word).toNat ∧
    (65535 : Word).toNat ≤ (bench .standard [] 65535 0).params.maxLen := by decide
/-- `"Zg=a"` and `"Zg=="`, and the three kinds of bad length at their ends. -/
theorem witness_DeclenComputesTheByteCount :
    (bench .standard [0x5A, 0x67, 0x3D, 0x61] 4 0).ibufAt (4 - 2) = 0x3D ∧
    (bench .standard [0x5A, 0x67, 0x3D, 0x61] 4 0).ibufAt (4 - 1) ≠ 0x3D ∧
    (bench .standard [0x5A, 0x67, 0x3D, 0x3D] 4 0).ibufAt (4 - 1) = 0x3D ∧
    (bench .standard [] 65536 0).params.maxLen < (65536 : Word).toNat ∧ (bench .standard [] 4 0).params.wf := by decide
theorem witness_EncblkEncodesOneFinalBlock :
    ∃ s t : State, s = bench .standard [0x66] 1 4 ∧ t = bench .standard [0x66, 0x6F, 0x6F] 3 5 ∧
      s.len.toNat = 1 ∧ s.ocap.toNat < 5 ∧ t.len.toNat = 3 ∧ 5 ≤ t.ocap.toNat ∧ 3 ≤ t.params.maxLen :=
  ⟨_, _, rfl, rfl, by decide, by decide, by decide, by decide, by decide⟩
theorem witness_EncEncodesTheWholeInput :
    (8 : Word).toNat < 4 * ((4 + 2) / 3) + 1 ∧ 4 * ((4 + 2) / 3) + 1 ≤ (9 : Word).toNat ∧
    4 ≤ (bench .standard [0x66, 0x6F, 0x6F, 0x62] 4 9).params.maxLen ∧
    4 * ((0 + 2) / 3) + 1 ≤ (1 : Word).toNat := by decide
/-- `"AAA="` is acceptable; `"A==="` first offends at 1, `"AAA!"` at 3. -/
theorem witness_DecblkDecodesOneFinalQuantum :
    allAcceptable .standard (bench .standard [0x41, 0x41, 0x41, 0x3D] 4 3).ibufAt 4 ∧
    textPads (bench .standard [0x41, 0x41, 0x41, 0x3D] 4 3).ibufAt 4 = 1 ∧
    firstOffender .standard (bench .standard [0x41, 0x3D, 0x3D, 0x3D] 4 3).ibufAt 4 1 ∧
    firstOffender .standard (bench .standard [0x41, 0x41, 0x41, 0x21] 4 3).ibufAt 4 3 := by
  refine ⟨?_, ?_, ⟨?_, ?_, ?_⟩, ?_, ?_, ?_⟩ <;> decide +kernel
/-- `"AAAAAA=="` is acceptable and needs 5 bytes; in `"AA==AA=="` the pad at 2 offends first; the empty text is
acceptable. -/
theorem witness_DecDecodesTheWholeText :
    allAcceptable .standard (bench .standard [0x41, 0x41, 0x41, 0x41, 0x41, 0x41, 0x3D, 0x3D] 8 5).ibufAt 8 ∧
    textBytes (bench .standard [0x41, 0x41, 0x41, 0x41, 0x41, 0x41, 0x3D, 0x3D] 8 5).ibufAt 8 = 4 ∧
    firstOffender .standard (bench .standard [0x41, 0x41, 0x3D, 0x3D, 0x41, 0x41, 0x3D, 0x3D] 8 5).ibufAt 8 2 ∧
    allAcceptable .standard (bench .standard [] 0 1).ibufAt 0 := by
  refine ⟨?_, ?_, ⟨?_, ?_, ?_⟩, ?_⟩ <;> decide +kernel
theorem witness_LengthErrorExactlyAsTabled :
    lengthBad .enclen 65536 65535 ∧ ¬ lengthBad .enc 0 65535 ∧ lengthBad .encblk 0 65535 ∧
    lengthBad .encblk 4 65535 ∧ lengthBad .declen 0 65535 ∧ ¬ lengthBad .dec 0 65535 ∧ lengthBad .dec 5 65535 ∧
    lengthBad .decblk 8 65535 := by simp [lengthBad]
/-- The five outcomes of R119's order, each reached: `DEC` of `"A!=a"`, of `"AA=a"`, of `"AAAA"` with and without
room, and an illegal word. -/
theorem witness_OneErrorIsReportedByPriority :
    offenderOf .dec .standard (bench .standard [0x41, 0x21, 0x3D, 0x61] 4 0).ibufAt 4 1 ∧
    offenderOf .decblk .standard (bench .standard [0x41, 0x41, 0x3D, 0x61] 4 0).ibufAt 4 2 ∧
    offenderOf .declen .standard (bench .standard [0x41, 0x41, 0x3D, 0x61] 4 0).ibufAt 4 2 ∧
    (∀ j, ¬ offenderOf .enc .standard (bench .standard [] 0 0).ibufAt 0 j) ∧
    capacityShort .enc (bench .standard [] 0 0).ibufAt 0 0 ∧
    ¬ capacityShort .enc (bench .standard [] 0 1).ibufAt 0 1 ∧
    ∀ i ∈ Instr.all, encode i ≠ 8 := by
  refine ⟨⟨?_, ?_, ?_⟩, ⟨?_, ?_, ?_⟩, ?_, fun _ h => h, ?_, ?_, ?_⟩ <;> (try simp only [offenderOf, capacityShort]) <;>
    decide +kernel
theorem witness_ErrorWritesStatusResultEposOnly :
    ∃ t, exec .declen (bench .standard [] 0 0) = .next t ∧ t.status ≠ 0x01 := ⟨_, rfl, by decide⟩
theorem witness_CommandFrame :
    (∃ t, exec .encblk (bench .standard [0x66] 1 5) = .next t ∧ transcodes .encblk = true ∧ t.status = 0x01) ∧
    ∃ t, exec .enclen (bench .standard [] 1 0) = .next t ∧ transcodes .enclen = false :=
  ⟨⟨_, rfl, rfl, rfl⟩, _, rfl, rfl⟩
theorem witness_OutcomeCodesPerCommandAsTabled :
    mayEnd .dec .char = true ∧ mayEnd .enclen .bufsz = false ∧ ∀ i ∈ Instr.all, encode i ≠ 0 := by decide
/-- Two states that agree on the operands only: `IBUF[1]`, `OBUF` and the result registers differ. -/
theorem witness_OutcomeDependsOnlyOnTheOperands :
    (∀ a, a < 1 → (bench .standard [0x66] 1 5).ibufAt a = (bench .standard [0x66, 0xFF] 1 5).ibufAt a) ∧
    (bench .standard [0x66] 1 5).len = (bench .standard [0x66, 0xFF] 1 5).len := by decide
theorem witness_NothingOfAnEarlierOutcomeMatters : ∃ t, exec .enc (bench .standard [] 0 1) = .next t := ⟨_, rfl⟩
theorem witness_RepeatingACommandChangesNothing :
    (bench .standard [0x66] 1 5).obuf.wf ∧ ∃ t, exec .enc (bench .standard [0x66] 1 5) = .next t :=
  ⟨by decide, _, rfl⟩
theorem witness_CommandsAfterResetBeforeCapacity :
    (queued [.reset]).pending = [.reset] ∧ State.reset.ocap = 0 ∧ State.reset.len = 0 ∧ transcodes .dec = true :=
  ⟨rfl, rfl, rfl, rfl⟩
theorem witness_BlockCommandsAgreeWithDrivers :
    1 ≤ (bench .standard [0x66] 1 5).len.toNat ∧ (bench .standard [0x66] 1 5).len.toNat ≤ 3 ∧
    (bench .standard [] 3 5).len.toNat ≤ 3 ∧ (bench .standard [] 4 5).len.toNat = 4 := by decide
theorem witness_DeclenIsASizeNotAValidator :
    0 < (bench .standard [0x41, 0x41, 0x3D, 0x3D] 4 2).len.toNat ∧
    ∃ t, exec .dec (bench .standard [0x41, 0x41, 0x3D, 0x3D] 4 2) = .next t ∧ t.status = 0x01 :=
  ⟨by decide, _, rfl, rfl⟩
theorem witness_GearboxIsABijection : g34 0xFF 0xFF 0xFF = (63, 63, 63, 63) ∧ g43 63 63 63 63 = (0xFF, 0xFF, 0xFF) := by
  decide
theorem witness_TextLengthBounds : 2 ^ 31 - 1 ≤ 2 ^ 31 - 1 ∧ (0 : Nat) ≤ 1336 := by decide
/-- `ENC` of one byte, and a second machine that holds the text `"Zg=="`. -/
theorem witness_DecodeOfEncodeIsTheInput :
    ∃ t, exec .enc (bench .standard [0x66] 1 5) = .next t ∧
      (bench .standard [0x5A, 0x67, 0x3D, 0x3D] 4 2).params = (bench .standard [0x66] 1 5).params ∧
      (bench .standard [0x5A, 0x67, 0x3D, 0x3D] 4 2).len = t.result ∧
      1 + 1 ≤ (bench .standard [0x5A, 0x67, 0x3D, 0x3D] 4 2).ocap.toNat ∧
      ∀ a, a < 4 → (bench .standard [0x5A, 0x67, 0x3D, 0x3D] 4 2).ibufAt a = t.obufAt a :=
  ⟨_, rfl, rfl, rfl, by decide, by decide +kernel⟩
/-- The canonical text `"Zg=="`, and `"Zm8="`, whose discarded bits are zero. -/
theorem witness_EncodeOfDecodeIsTheCanonicalText :
    allAcceptable .standard (bench .standard [0x5A, 0x67, 0x3D, 0x3D] 4 2).ibufAt 4 ∧
    textPads (bench .standard [0x5A, 0x67, 0x3D, 0x3D] 4 2).ibufAt 4 = 2 ∧
    (rev .standard ((bench .standard [0x5A, 0x67, 0x3D, 0x3D] 4 2).ibufAt (4 - 3))).toNat % 16 = 0 ∧
    textBytes (bench .standard [0x5A, 0x67, 0x3D, 0x3D] 4 2).ibufAt 4 + 1 ≤
      (bench .standard [0x5A, 0x67, 0x3D, 0x3D] 4 2).ocap.toNat ∧
    textPads (bench .standard [0x5A, 0x6D, 0x38, 0x3D] 4 3).ibufAt 4 = 1 ∧
    (rev .standard ((bench .standard [0x5A, 0x6D, 0x38, 0x3D] 4 3).ibufAt (4 - 2))).toNat % 4 = 0 := by
  decide +kernel
theorem witness_DeclenOfEncodedTextIsTheInputLength :
    1 ≤ (1 : Nat) ∧ 1 ≤ (bench .standard [0x66] 1 5).params.maxLen ∧
    4 * ((1 + 2) / 3) + 1 ≤ (bench .standard [0x66] 1 5).ocap.toNat ∧
    4 * ((1 + 2) / 3) ≤ (bench .standard [0x66] 1 5).params.maxLen := by decide
theorem witness_EncodedTextIsAlphabetThenPads :
    ∃ t, exec .enc (bench .urlSafe [0x66] 1 5) = .next t ∧ t.status = 0x01 ∧ 3 < 4 * ((1 + 2) / 3) :=
  ⟨_, rfl, rfl, by decide⟩
theorem witness_EncodingConcatenatesAtBlockBoundaries : ([0x66, 0x6F, 0x6F] : List Byte).length % 3 = 0 := by decide
/-- `"//8="` on a Standard device. -/
theorem witness_VariantsDifferOnlyAtTheTwoSymbols :
    (bench .standard [0xFF, 0xFF] 2 5).params = ⟨.standard, 65535⟩ ∧
    ∃ t, exec .enc (bench .standard [0xFF, 0xFF] 2 5) = .next t ∧ t.status = 0x01 ∧ 0 < t.result.toNat :=
  ⟨rfl, _, rfl, rfl, by decide⟩
/-- `"Zg=="` against `"Zh=="` (DE19), and `"Zm8="` against `"Zm9="` (DE20). -/
theorem witness_DiscardedBitsDoNotMatter :
    allAcceptable .standard (bench .standard [0x5A, 0x67, 0x3D, 0x3D] 4 2).ibufAt 4 ∧
    textPads (bench .standard [0x5A, 0x67, 0x3D, 0x3D] 4 2).ibufAt 4 = 2 ∧
    (rev .standard 0x68).toNat / 16 = (rev .standard 0x67).toNat / 16 ∧ inAlphabet .standard 0x68 ∧
    textPads (bench .standard [0x5A, 0x6D, 0x38, 0x3D] 4 3).ibufAt 4 = 1 ∧
    (rev .standard 0x39).toNat / 4 = (rev .standard 0x38).toNat / 4 ∧ inAlphabet .standard 0x39 := by
  decide +kernel

end Sys2Proof.Tests
end

section
/-! The alphabet tables (10_state.md R20 to R24). -/

namespace Sys2Proof.Machine

theorem alpha_injective (v : Variant) : Function.Injective (alpha v) :=
  Function.LeftInverse.injective (rev_alpha_index v)

theorem alphaIndex_eq_none_of_not_inAlphabet {v : Variant} {c : Byte} (h : ¬ inAlphabet v c) :
    alphaIndex v c = none :=
  Option.eq_none_iff_forall_not_mem.2 fun x hx => h ⟨x, alpha_of_alphaIndex v c x hx⟩

theorem rev_eq_zero_of_not_inAlphabet {v : Variant} {c : Byte} (h : ¬ inAlphabet v c) : rev v c = 0 := by
  simp [rev, alphaIndex_eq_none_of_not_inAlphabet h]

/-- Settles O32: the rows of R21 are read off the table; distinctness is that `REV` undoes `ALPHA`. -/
theorem alphabetTableAsTabled : Obligations.AlphabetTableAsTabled := by
  refine ⟨fun v => ?_, rfl, rfl, rfl, rfl, fun v x y => ⟨alpha_ne_pad v x, fun h => alpha_injective v h⟩⟩
  cases v <;> decide

/-- Settles O33: the laws from those of the table, the two counts by running through the 256 bytes. -/
theorem reverseTableInvertsTheAlphabet : Obligations.ReverseTableInvertsTheAlphabet := by
  intro v
  refine ⟨rev_alpha_index v, fun c hc => ?_, valid_iff_exists v, ?_, ?_, ?_⟩
  · exact rev_eq_zero_of_not_inAlphabet fun ⟨x, hx⟩ => hc x hx
  · cases v <;> rfl
  · cases v <;> rfl
  · cases v <;> rfl

end Sys2Proof.Machine
end

section
/-! What a step can do, said once, and the invariant every step keeps (10_state.md sections 1 and 5). -/

namespace Sys2Proof.Machine

@[simp] theorem State.setPending_regAt (s : State) (ts : List Transaction) (off : Word) :
    (s.setPending ts).regAt off = s.regAt off := rfl

/-- Everything a step that answers a next state can have done: nothing, or the oldest pending transaction. -/
inductive StepEnds (s : State) : State → Prop where
  /-- Nothing was pending (R11). -/
  | idle (hp : s.pending = []) : StepEnds s s
  /-- A `CMD` write of a legal word, and its command (R46, R43). -/
  | command {w : Word} {rest : List Transaction} {i : Instr} {u : State} (hp : s.pending = .writeReg 0x00 w :: rest)
      (hd : decode w = .ok i) (he : exec i ((s.setPending rest).storeCmd w) = .next u) : StepEnds s u
  /-- A `CMD` write of an illegal word (R55, R112). -/
  | illegal {w : Word} {rest : List Transaction} (hp : s.pending = .writeReg 0x00 w :: rest)
      (hd : ∀ i, decode w ≠ .ok i) : StepEnds s ((s.setPending rest).storeCmd w).illegalWord
  /-- A write to any other aligned offset (R46). -/
  | writeReg {off v : Word} {rest : List Transaction} (hp : s.pending = .writeReg off v :: rest)
      (ha : off.toNat % 4 = 0) (h0 : off ≠ 0x00) : StepEnds s (writeRegister off v (s.setPending rest))
  | readReg {off : Word} {rest : List Transaction} (hp : s.pending = .readReg off :: rest)
      (ha : off.toNat % 4 = 0) : StepEnds s ((s.setPending rest).reply (.word (s.regAt off)))
  | writeIbuf {a : Word} {v : Byte} {rest : List Transaction} (hp : s.pending = .writeIbuf a v :: rest) :
      StepEnds s ((s.setPending rest).hostWriteIbuf a.toNat v)
  | readIbuf {a : Word} {rest : List Transaction} (hp : s.pending = .readIbuf a :: rest) :
      StepEnds s ((s.setPending rest).reply (.byte (s.ibufAt a.toNat)))
  | readObuf {a : Word} {rest : List Transaction} (hp : s.pending = .readObuf a :: rest) :
      StepEnds s ((s.setPending rest).reply (.byte (s.obufAt a.toNat)))
  | writeObuf {a : Word} {v : Byte} {rest : List Transaction} (hp : s.pending = .writeObuf a v :: rest) :
      StepEnds s ((s.setPending rest).hostWriteObuf a.toNat v)
  | reset {rest : List Transaction} (hp : s.pending = .reset :: rest) : StepEnds s (s.setPending rest).resetRegisters

theorem step_idle {s : State} (hp : s.pending = []) : step s = .next s := by
  unfold step accept
  rw [hp]

theorem step_writeCmd_legal {s : State} {w : Word} {rest : List Transaction} {i : Instr}
    (hp : s.pending = .writeReg 0x00 w :: rest) (hd : decode w = .ok i) :
    step s = exec i ((s.setPending rest).storeCmd w) := by
  simp [step_pending hp, receive, registerAligned, hd]

theorem step_writeCmd_illegal {s : State} {w : Word} {rest : List Transaction}
    (hp : s.pending = .writeReg 0x00 w :: rest) (hd : ∀ i, decode w ≠ .ok i) :
    step s = .next ((s.setPending rest).storeCmd w).illegalWord := by
  cases hw : decode w with
  | ok i => exact absurd hw (hd i)
  | error e => simp [step_pending hp, receive, registerAligned, hw]

theorem step_writeReg {s : State} {off v : Word} {rest : List Transaction}
    (hp : s.pending = .writeReg off v :: rest) (ha : off.toNat % 4 = 0) (h0 : off ≠ 0x00) :
    step s = .next (writeRegister off v (s.setPending rest)) := by
  have h0' : off.toNat ≠ 0 := fun h => h0 (BitVec.eq_of_toNat_eq h)
  simp [step_pending hp, receive, registerAligned, ha, h0']

theorem step_readReg {s : State} {off : Word} {rest : List Transaction} (hp : s.pending = .readReg off :: rest)
    (ha : off.toNat % 4 = 0) : step s = .next ((s.setPending rest).reply (.word (s.regAt off))) := by
  simp [step_pending hp, receive, registerAligned, ha]

theorem step_misaligned {s : State} {off : Word} {rest : List Transaction} (ha : off.toNat % 4 ≠ 0)
    (hp : s.pending = .readReg off :: rest ∨ ∃ v, s.pending = .writeReg off v :: rest) :
    step s = .refused (.misalignedRegisterAccess off) := by
  obtain hp | ⟨v, hp⟩ := hp
  · simp [step_pending hp, receive, registerAligned, ha]
  · simp [step_pending hp, receive, registerAligned, ha]

theorem stepEnds_of_step {s u : State} (h : step s = .next u) : StepEnds s u := by
  cases hp : s.pending with
  | nil =>
    cases (step_idle hp).symm.trans h
    exact .idle hp
  | cons t rest =>
    cases t with
    | writeReg off v =>
      by_cases ha : off.toNat % 4 = 0
      case neg => cases (step_misaligned ha (.inr ⟨v, hp⟩)).symm.trans h
      by_cases h0 : off = 0x00
      case neg =>
        cases (step_writeReg hp ha h0).symm.trans h
        exact .writeReg hp ha h0
      subst h0
      by_cases hd : ∃ i, decode v = .ok i
      · obtain ⟨i, hd⟩ := hd
        exact .command hp hd ((step_writeCmd_legal hp hd).symm.trans h)
      · have hd' : ∀ i, decode v ≠ .ok i := fun i hi => hd ⟨i, hi⟩
        cases (step_writeCmd_illegal hp hd').symm.trans h
        exact .illegal hp hd'
    | readReg off =>
      by_cases ha : off.toNat % 4 = 0
      · cases (step_readReg hp ha).symm.trans h
        exact .readReg hp ha
      · cases (step_misaligned ha (.inl hp)).symm.trans h
    | writeIbuf a v =>
      cases (step_pending hp).symm.trans h
      exact .writeIbuf hp
    | readIbuf a =>
      cases (step_pending hp).symm.trans h
      exact .readIbuf hp
    | readObuf a =>
      cases (step_pending hp).symm.trans h
      exact .readObuf hp
    | writeObuf a v =>
      cases (step_pending hp).symm.trans h
      exact .writeObuf hp
    | reset =>
      cases (step_pending hp).symm.trans h
      exact .reset hp

/-! The updates of a state that meets the invariant. -/

theorem State.Inv.setPending {s : State} (h : s.Inv) (ts : List Transaction) : (s.setPending ts).Inv := { h with }

theorem State.Inv.reply {s : State} (h : s.Inv) (r : Reply) : (s.reply r).Inv := { h with }

theorem State.Inv.hostWriteIbuf {s : State} (h : s.Inv) (a : Word) (v : Byte) : (s.hostWriteIbuf a.toNat v).Inv :=
  { h with ibuf := Memory.write_wf v h.ibuf a.isLt }

theorem State.Inv.hostWriteObuf {s : State} (h : s.Inv) (a : Word) (v : Byte) : (s.hostWriteObuf a.toNat v).Inv :=
  { h with obuf := Memory.write_wf v h.obuf a.isLt }

theorem State.Inv.writeRegister {s : State} (h : s.Inv) (off v : Word) : (writeRegister off v s).Inv := by
  unfold Machine.writeRegister
  split
  · exact { h with }
  · exact { h with }
  · exact h

/-- Six zero registers meet every clause about them. -/
theorem State.Inv.of_zero_registers {s : State} (hp : s.params.wf) (hi : s.ibuf.wf) (ho : s.obuf.wf)
    (hcmd : s.cmd = 0) (hstatus : s.status = 0) (hresult : s.result = 0) (hepos : s.epos = 0) : s.Inv where
  params := hp
  ibuf := hi
  obuf := ho
  statusWords := .inl hstatus
  fresh _ := ⟨hcmd, hresult, hepos⟩
  illegal h := absurd hstatus h
  outcome h := absurd hstatus h
  failed _ := hresult
  bounded := by simp [hresult]
  position h := absurd hepos h

theorem State.Inv.resetRegisters {s : State} (h : s.Inv) : s.resetRegisters.Inv :=
  .of_zero_registers h.params h.ibuf h.obuf rfl rfl rfl rfl

/-! A command's end. -/

theorem statusWord_ne_zero (e : ErrCode) : statusWord e ≠ 0 := by cases e <;> decide

theorem errOfNumber_errField_statusWord (e : ErrCode) : errOfNumber (errField (statusWord e)) = some e := by
  cases e <;> rfl

theorem statusWord_injective : Function.Injective statusWord := fun e e' h => by
  have hcode : errOfNumber (errField (statusWord e)) = errOfNumber (errField (statusWord e')) := by rw [h]
  simpa only [errOfNumber_errField_statusWord, Option.some.injEq] using hcode

theorem mayEnd_ok (i : Instr) : mayEnd i .ok = true := by cases i <;> rfl

theorem mayEnd_cmd (i : Instr) : mayEnd i .cmd = false := by cases i <;> rfl

/-- The registers after the command in `CMD` ended with code `e` (R15, R16, R112, R120). -/
theorem State.Inv.of_outcome {t : State} {i : Instr} {e : ErrCode} (hp : t.params.wf) (hi : t.ibuf.wf)
    (ho : t.obuf.wf) (hd : decode t.cmd = .ok i) (hs : t.status = statusWord e) (hm : mayEnd i e = true)
    (hfailed : e ≠ .ok → t.result = 0) (hbounded : t.result.toNat ≤ enclen t.params.maxLen)
    (hposition : t.epos ≠ 0 → (e = .char ∨ e = .pad) ∧ t.epos.toNat < t.params.maxLen) : t.Inv where
  params := hp
  ibuf := hi
  obuf := ho
  statusWords := .inr ⟨e, hs⟩
  fresh h0 := absurd (hs.symm.trans h0) (statusWord_ne_zero e)
  illegal _ := by
    have hne : e ≠ .cmd := by
      rintro rfl
      simp [mayEnd_cmd] at hm
    exact ⟨fun h => absurd (statusWord_injective (hs.symm.trans h)) hne, fun h => absurd hd (h i)⟩
  outcome _ j hj := by
    cases hd.symm.trans hj
    exact ⟨e, hm, hs⟩
  failed hne := hfailed fun he => hne (he ▸ hs)
  bounded := hbounded
  position h0 := by
    obtain ⟨he, hlt⟩ := hposition h0
    refine ⟨?_, hlt⟩
    rcases he with rfl | rfl
    · exact .inl hs
    · exact .inr hs

theorem toNat_ofNat_le (n : Nat) : (BitVec.ofNat 32 n).toNat ≤ n := by
  rw [BitVec.toNat_ofNat]
  exact Nat.mod_le _ _

/-- The command in `CMD` leaves a machine with legal parameters and canonical buffers in the invariant, whatever its
other registers held before. -/
theorem State.Inv.of_ends {i : Instr} {s t : State} (hp : s.params.wf) (hi : s.ibuf.wf) (ho : s.obuf.wf)
    (hd : decode s.cmd = .ok i) (h : Ends i s t) : t.Inv := by
  cases h with
  | error e pos he hm hpos =>
    refine .of_outcome hp hi ho hd rfl hm (fun _ => rfl) (Nat.zero_le _) fun h0 => ?_
    have hpos0 : pos ≠ 0 := by
      rintro rfl
      exact h0 rfl
    obtain ⟨hcode, hlt⟩ := hpos hpos0
    exact ⟨hcode, Nat.lt_of_le_of_lt (toNat_ofNat_le pos) hlt⟩
  | size r ht hr =>
    exact .of_outcome hp hi ho hd rfl (mayEnd_ok i) (fun h => absurd rfl h) ((toNat_ofNat_le r).trans hr)
      fun h => absurd rfl h
  | output bytes r ht hl hc hr =>
    have hlen : 0 + (bytes ++ [Config.term]).length ≤ 2 ^ 32 := by
      have := s.ocap.isLt
      simp only [List.length_append, List.length_singleton]
      omega
    have hfour : 4 ≤ enclen s.params.maxLen := by
      have := le_enclen s.params.maxLen
      omega
    exact .of_outcome hp hi (Memory.writeAll_wf ho hlen) hd rfl (mayEnd_ok i) (fun h => absurd rfl h)
      ((toNat_ofNat_le r).trans (hr.elim id (·.trans hfour))) fun h => absurd rfl h

/-- An illegal word in `CMD` leaves the machine in the invariant (R112). -/
theorem State.Inv.of_illegalWord {s : State} (hp : s.params.wf) (hi : s.ibuf.wf) (ho : s.obuf.wf)
    (hd : ∀ i, decode s.cmd ≠ .ok i) : s.illegalWord.Inv where
  params := hp
  ibuf := hi
  obuf := ho
  statusWords := .inr ⟨.cmd, rfl⟩
  fresh h0 := absurd h0 (statusWord_ne_zero .cmd)
  illegal _ := ⟨fun _ => hd, fun _ => rfl⟩
  outcome _ i hi := absurd hi (hd i)
  failed _ := rfl
  bounded := Nat.zero_le _
  position h0 := absurd rfl h0

/-- Settles O12, by the cases of what a step can do. -/
theorem stepKeepsTheMachineInvariant : Obligations.StepKeepsTheMachineInvariant := by
  intro s u hs hstep
  cases stepEnds_of_step hstep with
  | idle hp => exact hs
  | @command w rest i _ hp hd he =>
    exact .of_ends (s := (s.setPending rest).storeCmd w) hs.params hs.ibuf hs.obuf hd (ends_of_exec he)
  | @illegal w rest hp hd =>
    exact .of_illegalWord (s := (s.setPending rest).storeCmd w) hs.params hs.ibuf hs.obuf hd
  | writeReg hp ha h0 => exact (hs.setPending _).writeRegister _ _
  | readReg hp ha => exact (hs.setPending _).reply _
  | writeIbuf hp => exact (hs.setPending _).hostWriteIbuf _ _
  | readIbuf hp => exact (hs.setPending _).reply _
  | readObuf hp => exact (hs.setPending _).reply _
  | writeObuf hp => exact (hs.setPending _).hostWriteObuf _ _
  | reset hp => exact (hs.setPending _).resetRegisters

/-- Settles O13: the six registers are zero and the suggested `MAXLEN` is within its bounds. -/
theorem resetStateMeetsTheInvariant : Obligations.ResetStateMeetsTheInvariant :=
  .of_zero_registers (by decide) Memory.reset_wf.1 Memory.reset_wf.2 rfl rfl rfl rfl

end Sys2Proof.Machine
end

section
/-! What a command's outcome depends on: two runs side by side (10_state.md R27). -/

namespace Sys2Proof.Machine

/-- The two states give a command the same operands (30_encoding.md R56, 20_memory.md R35). -/
structure SameOperands (s s' : State) : Prop where
  params : s.params = s'.params
  len : s.len = s'.len
  ocap : s.ocap = s'.ocap
  ibuf : ∀ a, a < s.len.toNat → s.ibufAt a = s'.ibufAt a

theorem SameOperands.input {s s' : State} (h : SameOperands s s') {n : Nat} (hn : n ≤ s.len.toNat) :
    s.input n = s'.input n :=
  List.map_congr_left fun a ha => h.ibuf a (by have := List.mem_range.1 ha; omega)

theorem SameOperands.declen {s s' : State} (h : SameOperands s s') {L : Nat} (h0 : 0 < L) (hL : L ≤ s.len.toNat) :
    s.declen L = s'.declen L := by
  simp only [State.declen, h.ibuf (L - 2) (by omega), h.ibuf (L - 1) (by omega)]

/-- Two runs of one command that end alike: the same error, the same length, or the same output. -/
inductive EndAlike (i : Instr) (s s' : State) : State → State → Prop where
  | error (e : ErrCode) (pos : Nat) (he : e ≠ .ok) : EndAlike i s s' (s.raise e pos) (s'.raise e pos)
  | size (r : Nat) (ht : transcodes i = false) : EndAlike i s s' (s.complete r) (s'.complete r)
  | output (bytes : List Byte) (r : Nat) (ht : transcodes i = true) (hl : bytes.length = r) :
      EndAlike i s s' (s.deliver bytes r) (s'.deliver bytes r)

/-- Both runs answer a next state, and end alike. -/
def RunAlike (i : Instr) (s s' : State) : Prop :=
  ∃ t t', exec i s = .next t ∧ exec i s' = .next t' ∧ EndAlike i s s' t t'

section
variable {s s' : State}

theorem execEnclen_alike (h : SameOperands s s') : RunAlike .enclen s s' := by
  simp only [RunAlike, exec_enclen, execEnclen, State.lenOperand, ← h.params, ← h.len]
  split
  · exact ⟨_, _, rfl, rfl, .error _ _ (by decide)⟩
  · exact ⟨_, _, rfl, rfl, .size _ rfl⟩

theorem execDeclen_alike (h : SameOperands s s') : RunAlike .declen s s' := by
  simp only [RunAlike, exec_declen, execDeclen, State.lenOperand, ← h.params, ← h.len]
  split
  · exact ⟨_, _, rfl, rfl, .error _ _ (by decide)⟩
  split
  · exact ⟨_, _, rfl, rfl, .error _ _ (by decide)⟩
  rename_i hle hlen
  rw [← h.ibuf (s.len.toNat - 2) (by omega), ← h.ibuf (s.len.toNat - 1) (by omega),
    ← h.declen (by omega) (Nat.le_refl _)]
  split
  · exact ⟨_, _, rfl, rfl, .error _ _ (by decide)⟩
  · exact ⟨_, _, rfl, rfl, .size _ rfl⟩

theorem execEncblk_alike (h : SameOperands s s') : RunAlike .encblk s s' := by
  simp only [RunAlike, exec_encblk, execEncblk, State.lenOperand, State.capOperand, ← h.params, ← h.len, ← h.ocap,
    ← h.input (Nat.le_refl _)]
  split
  · exact ⟨_, _, rfl, rfl, .error _ _ (by decide)⟩
  split
  · exact ⟨_, _, rfl, rfl, .error _ _ (by decide)⟩
  split
  · exact ⟨_, _, rfl, rfl, .error _ _ (by decide)⟩
  · refine ⟨_, _, rfl, rfl, .output _ _ rfl (encBlk_length _ ?_ ?_)⟩
    · rw [State.input_length]; omega
    · rw [State.input_length]; omega

theorem execEnc_alike (h : SameOperands s s') : RunAlike .enc s s' := by
  simp only [RunAlike, exec_enc, execEnc, State.lenOperand, State.capOperand, ← h.params, ← h.len, ← h.ocap,
    ← h.input (Nat.le_refl _)]
  split
  · exact ⟨_, _, rfl, rfl, .error _ _ (by decide)⟩
  split
  · exact ⟨_, _, rfl, rfl, .error _ _ (by decide)⟩
  · exact ⟨_, _, rfl, rfl, .output _ _ rfl (by rw [encText_length, State.input_length])⟩

theorem execDecblk_alike (h : SameOperands s s') : RunAlike .decblk s s' := by
  simp only [RunAlike, exec_decblk, execDecblk, State.lenOperand, State.capOperand, ← h.params, ← h.len, ← h.ocap]
  split
  · exact ⟨_, _, rfl, rfl, .error _ _ (by decide)⟩
  split
  · exact ⟨_, _, rfl, rfl, .error _ _ (by decide)⟩
  rename_i hle hlen
  rw [← h.input (n := 4) (by omega), ← h.ibuf 0 (by omega), ← h.ibuf 1 (by omega), ← h.ibuf 2 (by omega),
    ← h.ibuf 3 (by omega)]
  have hscan := scan_input_means s.params.variant s 4
  cases hc : scan s.params.variant (s.input 4) with
  | badChar k => exact ⟨_, _, rfl, rfl, .error _ _ (by decide)⟩
  | badPad k => exact ⟨_, _, rfl, rfl, .error _ _ (by decide)⟩
  | ok =>
    rw [hc] at hscan
    dsimp only
    split
    · exact ⟨_, _, rfl, rfl, .error _ _ (by decide)⟩
    · exact ⟨_, _, rfl, rfl, .output _ _ rfl (by rw [three_sub_padCount, decBlk_length_of_acceptable hscan])⟩

theorem execDec_alike (h : SameOperands s s') : RunAlike .dec s s' := by
  simp only [RunAlike, exec_dec, execDec, State.lenOperand, State.capOperand, ← h.params, ← h.len, ← h.ocap,
    ← h.input (Nat.le_refl _)]
  split
  · exact ⟨_, _, rfl, rfl, .error _ _ (by decide)⟩
  split
  · exact ⟨_, _, rfl, rfl, .error _ _ (by decide)⟩
  split
  · split
    · exact ⟨_, _, rfl, rfl, .error _ _ (by decide)⟩
    · exact ⟨_, _, rfl, rfl, .output [] 0 rfl rfl⟩
  rename_i hle hquanta hempty
  rw [← h.declen (by omega) (Nat.le_refl _)]
  have hscan := scan_input_means s.params.variant s s.len.toNat
  cases hc : scan s.params.variant (s.input s.len.toNat) with
  | badChar k => exact ⟨_, _, rfl, rfl, .error _ _ (by decide)⟩
  | badPad k => exact ⟨_, _, rfl, rfl, .error _ _ (by decide)⟩
  | ok =>
    rw [hc] at hscan
    dsimp only
    split
    · exact ⟨_, _, rfl, rfl, .error _ _ (by decide)⟩
    · refine ⟨_, _, rfl, rfl, .output _ _ rfl ?_⟩
      rw [State.declen_eq, decText_length_of_acceptable (by omega) (by omega) hscan]

theorem exec_alike (i : Instr) (h : SameOperands s s') : RunAlike i s s' := by
  cases i with
  | enclen => exact execEnclen_alike h
  | enc => exact execEnc_alike h
  | encblk => exact execEncblk_alike h
  | declen => exact execDeclen_alike h
  | dec => exact execDec_alike h
  | decblk => exact execDecblk_alike h

end

/-- The output and its terminator hide what `OBUF` held before. -/
theorem State.deliver_obufAt_congr (s s' : State) {bytes : List Byte} {r a : Nat} (hl : bytes.length = r)
    (ha : a ≤ r) : (s.deliver bytes r).obufAt a = (s'.deliver bytes r).obufAt a := by
  have hlt : a < (bytes ++ [Config.term]).length := by
    simp only [List.length_append, List.length_singleton]
    omega
  simp only [State.deliver_obufAt, List.getElem?_eq_getElem hlt, Option.getD_some]

theorem EndAlike.same_registers {i : Instr} {s s' t t' : State} (h : EndAlike i s s' t t') :
    t.status = t'.status ∧ t.result = t'.result ∧ t.epos = t'.epos := by
  cases h with
  | error e pos he => exact ⟨rfl, rfl, rfl⟩
  | size r ht => exact ⟨rfl, rfl, rfl⟩
  | output bytes r ht hl => exact ⟨rfl, rfl, rfl⟩

theorem EndAlike.same_output {i : Instr} {s s' t t' : State} (h : EndAlike i s s' t t') (ht : transcodes i = true)
    (hok : t.status = statusWord .ok) {a : Nat} (ha : a ≤ t.result.toNat) : t.obufAt a = t'.obufAt a := by
  cases h with
  | error e pos he => exact absurd (statusWord_injective hok) he
  | size r hf => simp [hf] at ht
  | output bytes r _ hl => exact State.deliver_obufAt_congr s s' hl (ha.trans (toNat_ofNat_le r))

/-- Settles O26: both runs take the same branch of the command and end alike. -/
theorem outcomeDependsOnlyOnTheOperands : Obligations.OutcomeDependsOnlyOnTheOperands := by
  intro i s s' hparams hlen hocap hibuf
  obtain ⟨t, t', ht, ht', halike⟩ := exec_alike i ⟨hparams, hlen, hocap, hibuf⟩
  obtain ⟨hstatus, hresult, hepos⟩ := halike.same_registers
  exact ⟨t, t', ht, ht', hstatus, hresult, hepos, fun htr hok a ha =>
    halike.same_output htr (hok.trans statusWord_ok.symm) ha⟩

end Sys2Proof.Machine
end

section
/-! The host's transactions, one by one (20_memory.md section 4), and the transactions a step refuses (R38). -/

namespace Sys2Proof.Machine

/-! The command word of a `CMD` write (30_encoding.md R53, R54). -/

theorem decode_encode (i : Instr) : decode (encode i) = .ok i := by cases i <;> rfl

theorem toNat_eq_fields (w : Word) : w.toNat = rsvField w * 8 + dirField w * 4 + fnField w := by
  unfold rsvField dirField fnField
  omega

/-- A word that spells a command has the fields of the command's row (R54). -/
theorem fields_of_decode {w : Word} {i : Instr} (h : decode w = .ok i) :
    rsvField w = 0 ∧ dirField w = dirOf i ∧ fnField w = fnOf i := by
  have hdir : dirField w < 2 := Nat.mod_lt _ (by decide)
  have hfn : fnField w < 4 := Nat.mod_lt _ (by decide)
  unfold decode at h
  split at h
  · cases h
  · rename_i hrsv
    refine ⟨not_not.1 hrsv, ?_⟩
    generalize dirField w = d at *
    generalize fnField w = f at *
    -- The eight pairs of `DIR` and `FN`: `FN = 0` spells nothing, each of the other six spells its own row.
    interval_cases d <;> interval_cases f
    all_goals cases h
    all_goals exact ⟨rfl, rfl⟩

theorem encode_of_decode {w : Word} {i : Instr} (h : decode w = .ok i) : encode i = w := by
  obtain ⟨hrsv, hdir, hfn⟩ := fields_of_decode h
  have hw : w.toNat = dirOf i * 4 + fnOf i := by rw [toNat_eq_fields, hrsv, hdir, hfn]; omega
  rw [encode, ← hw, BitVec.ofNat_toNat, BitVec.setWidth_eq]

theorem decode_eq_ok_iff {w : Word} {i : Instr} : decode w = .ok i ↔ encode i = w :=
  ⟨encode_of_decode, fun h => h ▸ decode_encode i⟩

/-- Settles O3: the step of a `CMD` write of a legal word, its two updates written out. -/
theorem stepRunsTheDecodedCommand : Obligations.StepRunsTheDecodedCommand :=
  fun _ _ _ _ hp _ hd => step_writeCmd_legal hp hd

/-! Register accesses (R46, R47). -/

theorem writeRegister_len (v : Word) (s : State) : writeRegister 0x08 v s = s.storeLen v := rfl

theorem writeRegister_ocap (v : Word) (s : State) : writeRegister 0x0C v s = s.storeOcap v := rfl

/-- A read-only or reserved register ignores the write (10_state.md R17). -/
theorem writeRegister_ignored {off : Word} (hlen : off ≠ 0x08) (hocap : off ≠ 0x0C) (v : Word) (s : State) :
    writeRegister off v s = s := by
  unfold writeRegister
  split
  · exact absurd (BitVec.eq_of_toNat_eq ‹_›) hlen
  · exact absurd (BitVec.eq_of_toNat_eq ‹_›) hocap
  · rfl

/-- Settles O5, offset by offset; at `CMD`, by whether the word spells a command. -/
theorem registerWriteEffects : Obligations.RegisterWriteEffects := by
  intro s off v rest hp ha
  refine ⟨?_, ?_, ?_, ?_⟩
  · rintro rfl
    exact step_writeReg hp ha (by decide)
  · rintro rfl
    exact step_writeReg hp ha (by decide)
  · rintro rfl
    exact ⟨fun i hi => step_writeCmd_legal hp (decode_eq_ok_iff.2 hi),
      fun hv => step_writeCmd_illegal hp fun i hd => hv i (decode_eq_ok_iff.1 hd)⟩
  · intro hcmd hlen hocap
    rw [step_writeReg hp ha hcmd, writeRegister_ignored hlen hocap]
    rfl

theorem State.cfg_eq (s : State) : s.cfg = if s.params.variant = .urlSafe then 1 else 0 := by
  unfold State.cfg
  cases s.params.variant <;> rfl

/-- A reserved offset reads 0 (10_state.md R17). -/
theorem State.regAt_reserved (s : State) {off : Word} (h : 0x20 ≤ off.toNat) : s.regAt off = 0 := by
  unfold State.regAt
  split
  case h_9 => rfl
  all_goals omega

/-- Settles O6: the value is `regAt`, read off the register map. -/
theorem registerReadReturnsTheValue : Obligations.RegisterReadReturnsTheValue := by
  intro s off rest hp ha
  refine ⟨s.regAt off, step_readReg hp ha, ?_, ?_, ?_, ?_, ?_, ?_, ?cfg, ?_, s.regAt_reserved⟩
  case cfg =>
    rintro rfl
    exact s.cfg_eq
  all_goals
    rintro rfl
    rfl

/-! Buffer accesses and `Reset` (R48 to R51). -/

/-- Settles O7, with the buffer after the store as the witness. -/
theorem inputBufferTransactions : Obligations.InputBufferTransactions := fun s i v _ =>
  ⟨fun hp => ⟨s.ibuf.write i.toNat v, step_pending hp, fun a => Memory.byteAt_write .ibuf s.ibuf i.toNat a v⟩,
    step_pending⟩

/-- Settles O8, with the buffer after the store as the witness. -/
theorem outputBufferTransactions : Obligations.OutputBufferTransactions := fun s i v _ =>
  ⟨fun hp => ⟨s.obuf.write i.toNat v, step_pending hp, fun a => Memory.byteAt_write .obuf s.obuf i.toNat a v⟩,
    step_pending⟩

/-- Settles O9: the step is `resetRegisters`, written out. -/
theorem resetClearsTheSixRegistersOnly : Obligations.ResetClearsTheSixRegistersOnly := fun _ _ hp => step_pending hp

/-! Which transactions a step refuses (R38). -/

theorem Transaction.wf_eq_false_iff (t : Transaction) :
    t.wf = false ↔ ∃ off : Word, off.toNat % 4 ≠ 0 ∧ (t = .readReg off ∨ ∃ v, t = .writeReg off v) := by
  cases t <;> simp [Transaction.wf]

/-- A well-formed transaction is performed, whatever it is: no command faults or refuses (60_exceptions.md R123). -/
theorem step_next_of_wf {s : State} {t : Transaction} {rest : List Transaction} (hp : s.pending = t :: rest)
    (hwf : t.wf = true) : ∃ u, step s = .next u := by
  cases t with
  | writeReg off v =>
    have ha : off.toNat % 4 = 0 := beq_iff_eq.1 hwf
    by_cases h0 : off = 0x00
    case neg => exact ⟨_, step_writeReg hp ha h0⟩
    subst h0
    by_cases hd : ∃ i, decode v = .ok i
    · obtain ⟨i, hd⟩ := hd
      obtain ⟨u, hu, -⟩ := exec_ends i ((s.setPending rest).storeCmd v)
      exact ⟨u, (step_writeCmd_legal hp hd).trans hu⟩
    · exact ⟨_, step_writeCmd_illegal hp fun i hi => hd ⟨i, hi⟩⟩
  | readReg off => exact ⟨_, step_readReg hp (beq_iff_eq.1 hwf)⟩
  | writeIbuf a v => exact ⟨_, step_pending hp⟩
  | readIbuf a => exact ⟨_, step_pending hp⟩
  | readObuf a => exact ⟨_, step_pending hp⟩
  | writeObuf a v => exact ⟨_, step_pending hp⟩
  | reset => exact ⟨_, step_pending hp⟩

/-- A refused step has a transaction pending that is not well-formed. -/
theorem pending_of_step_refused {s : State} {r : Refusal} (h : step s = .refused r) :
    ∃ t rest, s.pending = t :: rest ∧ t.wf = false := by
  cases hp : s.pending with
  | nil => cases (step_idle hp).symm.trans h
  | cons t rest =>
    refine ⟨t, rest, rfl, ?_⟩
    cases hwf : t.wf with
    | false => rfl
    | true =>
      obtain ⟨u, hu⟩ := step_next_of_wf hp hwf
      cases hu.symm.trans h

/-- Settles O10: a refused transaction is not well-formed, and every such transaction is refused by its offset. -/
theorem onlyMisalignedRegisterAccessIsRefused : Obligations.OnlyMisalignedRegisterAccessIsRefused := by
  refine ⟨fun s r => ⟨fun h => ?_, ?_⟩, fun s => step_idle⟩
  · obtain ⟨t, rest, hp, hwf⟩ := pending_of_step_refused h
    obtain ⟨off, ha, ht⟩ := t.wf_eq_false_iff.1 hwf
    have hacc : s.pending = .readReg off :: rest ∨ ∃ v, s.pending = .writeReg off v :: rest := by
      obtain rfl | ⟨v, rfl⟩ := ht
      · exact .inl hp
      · exact .inr ⟨v, hp⟩
    cases (step_misaligned ha hacc).symm.trans h
    exact ⟨off, rest, ha, rfl, hacc⟩
  · rintro ⟨off, rest, ha, rfl, hacc⟩
    exact step_misaligned ha hacc

end Sys2Proof.Machine
end

section
/-! The frame of the commands (20_memory.md R36), and a command run twice (R41). -/

namespace Sys2Proof.Machine

/-- What no command writes, whichever way it ends. -/
theorem Ends.frame {i : Instr} {s t : State} (h : Ends i s t) :
    t.cmd = s.cmd ∧ t.len = s.len ∧ t.ocap = s.ocap ∧ t.params = s.params ∧ t.ibuf = s.ibuf ∧
      t.pending = s.pending ∧ t.replies = s.replies := by
  cases h with
  | error e pos he hm hp => exact ⟨rfl, rfl, rfl, rfl, rfl, rfl, rfl⟩
  | size r ht hr => exact ⟨rfl, rfl, rfl, rfl, rfl, rfl, rfl⟩
  | output bytes r ht hl hc hr => exact ⟨rfl, rfl, rfl, rfl, rfl, rfl, rfl⟩

/-- A command leaves its own operands in place. -/
theorem Ends.sameOperands {i : Instr} {s t : State} (h : Ends i s t) : SameOperands s t := by
  obtain ⟨-, hlen, hocap, hparams, hibuf, -, -⟩ := h.frame
  exact ⟨hparams.symm, hlen.symm, hocap.symm, fun a _ => by simp only [State.ibufAt, hibuf]⟩

/-- The terminator stands right after the output (R36, R87, R107). -/
theorem State.deliver_obufAt_end (s : State) {bytes : List Byte} {r : Nat} (hl : bytes.length = r) :
    (s.deliver bytes r).obufAt r = Config.term := by
  simp [State.deliver_obufAt, ← hl]

/-- Nothing past the terminator is written (R36). -/
theorem State.deliver_obufAt_above (s : State) {bytes : List Byte} {r a : Nat} (hl : bytes.length = r)
    (ha : r < a) : (s.deliver bytes r).obufAt a = s.obufAt a := by
  have hlen : (bytes ++ [Config.term]).length ≤ a := by
    simp only [List.length_append, List.length_singleton]
    omega
  rw [State.deliver_obufAt, List.getElem?_eq_none hlen, Option.getD_none]

/-- The written part of `OBUF` after a success: `OBUF[0 .. RESULT]`, below `OCAP`, the terminator last. -/
theorem Ends.output_frame {i : Instr} {s t : State} (h : Ends i s t) (htr : transcodes i = true)
    (hok : t.status = statusWord .ok) :
    t.result.toNat + 1 ≤ s.ocap.toNat ∧ t.obufAt t.result.toNat = Config.term ∧
      ∀ a, t.result.toNat < a → t.obufAt a = s.obufAt a := by
  cases h with
  | error e pos he hm hp => exact absurd (statusWord_injective hok) he
  | size r ht hr => simp [htr] at ht
  | output bytes r ht hl hc hr =>
    have hres : (s.deliver bytes r).result.toNat = r := by
      have := s.ocap.isLt
      rw [State.deliver_result, BitVec.toNat_ofNat, Nat.mod_eq_of_lt (by omega)]
    rw [hres]
    exact ⟨hc, s.deliver_obufAt_end hl, fun a => s.deliver_obufAt_above hl⟩

/-- `OBUF` is written by a success of a transcoding command only. -/
theorem Ends.obuf_unchanged {i : Instr} {s t : State} (h : Ends i s t)
    (hno : transcodes i = false ∨ t.status ≠ statusWord .ok) : t.obuf = s.obuf := by
  cases h with
  | error e pos he hm hp => rfl
  | size r ht hr => rfl
  | output bytes r ht hl hc hr =>
    obtain hf | hne := hno
    · simp [hf] at ht
    · exact absurd rfl hne

/-- Settles O24: what no command writes, then `OBUF` by how the command ends. -/
theorem commandFrame : Obligations.CommandFrame := by
  intro i s t hexec
  have hends := ends_of_exec hexec
  obtain ⟨hcmd, hlen, hocap, hparams, hibuf, hpending, hreplies⟩ := hends.frame
  refine ⟨hcmd, hlen, hocap, hparams, hibuf, hpending, hreplies, fun a => ?_, hends.output_frame, fun hno => ?_⟩
  · simp only [State.ibufAt, hibuf]
  · have hobuf : t.obuf = s.obuf := hends.obuf_unchanged hno
    exact ⟨hobuf, fun a => by simp only [State.obufAt, hobuf]⟩

/-! The same command again (R41). -/

theorem Ends.obuf_wf {i : Instr} {s t : State} (h : Ends i s t) (hwf : s.obuf.wf) : t.obuf.wf := by
  cases h with
  | error e pos he hm hp => exact hwf
  | size r ht hr => exact hwf
  | output bytes r ht hl hc hr =>
    refine Memory.writeAll_wf hwf ?_
    have := s.ocap.isLt
    simp only [List.length_append, List.length_singleton]
    omega

/-- Storing the same bytes again changes nothing. -/
theorem Memory.writeAll_writeAll {m : Memory} {a : Nat} {bytes : List Byte} (hwf : (m.writeAll a bytes).wf) :
    (m.writeAll a bytes).writeAll a bytes = m.writeAll a bytes :=
  Memory.writeAll_of_lookup hwf fun k hk => by simp [Memory.lookup_writeAll, hk]

theorem State.deliver_deliver {s : State} {bytes : List Byte} {r : Nat} (hwf : (s.deliver bytes r).obuf.wf) :
    (s.deliver bytes r).deliver bytes r = s.deliver bytes r :=
  congrArg (fun m => { s.deliver bytes r with obuf := m }) (Memory.writeAll_writeAll hwf)

/-- A run that ends like the one that gave the state it starts from changes nothing. -/
theorem EndAlike.eq_of_again {i : Instr} {s t u : State} (h : EndAlike i s t t u) (hwf : t.obuf.wf) : u = t := by
  cases h with
  | error e pos he => rfl
  | size r ht => rfl
  | output bytes r ht hl => exact State.deliver_deliver hwf

/-- Settles O28: the command leaves its operands in place, so the second run ends like the first. -/
theorem repeatingACommandChangesNothing : Obligations.RepeatingACommandChangesNothing := by
  intro i s t hwf hexec
  have hends := ends_of_exec hexec
  obtain ⟨t', u, ht', hu, halike⟩ := exec_alike i hends.sameOperands
  cases ht'.symm.trans hexec
  rw [hu, halike.eq_of_again (hends.obuf_wf hwf)]

end Sys2Proof.Machine
end

section
/-! The command word over all words (30_encoding.md R53 to R55). -/

namespace Sys2Proof.Machine

theorem rsvField_eq_zero_iff (w : Word) : rsvField w = 0 ↔ w.extractLsb 31 3 = 0 := by
  have hlt := w.isLt
  have hbits : (w.extractLsb 31 3).toNat = rsvField w := by
    rw [BitVec.extractLsb_toNat, Nat.shiftRight_eq_div_pow, rsvField]
    omega
  rw [← hbits, ← BitVec.toNat_inj]
  rfl

theorem fnField_eq_zero_iff (w : Word) : fnField w = 0 ↔ w.extractLsb 1 0 = 0 := by
  have hbits : (w.extractLsb 1 0).toNat = fnField w := by
    rw [BitVec.extractLsb_toNat, Nat.shiftRight_zero, fnField]
  rw [← hbits, ← BitVec.toNat_inj]
  rfl

theorem fnOf_ne_zero (i : Instr) : fnOf i ≠ 0 := by cases i <;> decide

/-- The decoder rejects a word only for its `RSV` or its `FN` (R54, R55). -/
theorem exists_decode_iff (w : Word) : (∃ i, decode w = .ok i) ↔ rsvField w = 0 ∧ fnField w ≠ 0 := by
  constructor
  · rintro ⟨i, hi⟩
    obtain ⟨hrsv, -, hfn⟩ := fields_of_decode hi
    exact ⟨hrsv, hfn ▸ fnOf_ne_zero i⟩
  · rintro ⟨hrsv, hfn⟩
    rw [decode, if_neg (not_not.2 hrsv)]
    split
    case h_1 h0 => exact absurd h0 hfn
    all_goals exact ⟨_, rfl⟩

/-- Settles O2: `decode` and `encode` are inverse, and the decoder's two conditions are those on the bits. -/
theorem wordSpellsCommandExactlyAsTabled : Obligations.WordSpellsCommandExactlyAsTabled := by
  refine ⟨fun _ _ => decode_eq_ok_iff, fun w => ?_, rfl, rfl, rfl, rfl, rfl, rfl⟩
  rw [exists_decode_iff, rsvField_eq_zero_iff, Ne, fnField_eq_zero_iff]

/-- Settles O1: the six words are the encodings, and the four others are rejected by the field R55 names. -/
theorem sampleWordsDecodeAsTheTableSays : Obligations.SampleWordsDecodeAsTheTableSays :=
  ⟨decode_encode .enclen, decode_encode .enc, decode_encode .encblk, decode_encode .declen, decode_encode .dec,
    decode_encode .decblk, rfl, rfl, rfl, rfl⟩

end Sys2Proof.Machine
end

section
/-! The gearbox as two readings of one 24-bit window (30_encoding.md R57, R60). -/

namespace Sys2Proof.Machine

/-- The byte reading of the window: `b0 ++ b1 ++ b2` as a number (R57). -/
def byteWindow (b0 b1 b2 : Byte) : Nat := b0.toNat * 2 ^ 16 + b1.toNat * 2 ^ 8 + b2.toNat

/-- The sextet reading of the window: `s0 ++ s1 ++ s2 ++ s3` as a number (R57). -/
def sextetWindow (s0 s1 s2 s3 : Sextet) : Nat :=
  s0.toNat * 2 ^ 18 + s1.toNat * 2 ^ 12 + s2.toNat * 2 ^ 6 + s3.toNat

/-- Three bytes with the same window are the same bytes. -/
theorem byteWindow_inj {a0 a1 a2 b0 b1 b2 : Byte} :
    byteWindow a0 a1 a2 = byteWindow b0 b1 b2 ↔ (a0, a1, a2) = (b0, b1, b2) := by
  have := a1.isLt; have := a2.isLt; have := b1.isLt; have := b2.isLt
  simp only [Prod.mk.injEq, ← BitVec.toNat_inj, byteWindow]
  omega

/-- Four sextets with the same window are the same sextets. -/
theorem sextetWindow_inj {r0 r1 r2 r3 s0 s1 s2 s3 : Sextet} :
    sextetWindow r0 r1 r2 r3 = sextetWindow s0 s1 s2 s3 ↔ (r0, r1, r2, r3) = (s0, s1, s2, s3) := by
  have := r1.isLt; have := r2.isLt; have := r3.isLt; have := s1.isLt; have := s2.isLt; have := s3.isLt
  simp only [Prod.mk.injEq, ← BitVec.toNat_inj, sextetWindow]
  omega

/-- `G34` keeps the window (R57, R58). -/
theorem sextetWindow_g34 (b0 b1 b2 : Byte) :
    sextetWindow (g34 b0 b1 b2).1 (g34 b0 b1 b2).2.1 (g34 b0 b1 b2).2.2.1 (g34 b0 b1 b2).2.2.2 =
      byteWindow b0 b1 b2 := by
  rw [sextetWindow, g34_fst, g34_snd, g34_third, g34_fourth, byteWindow]
  omega

/-- `G43` keeps the window (R57, R59). -/
theorem byteWindow_g43 (v0 v1 v2 v3 : Sextet) :
    byteWindow (g43 v0 v1 v2 v3).1 (g43 v0 v1 v2 v3).2.1 (g43 v0 v1 v2 v3).2.2 = sextetWindow v0 v1 v2 v3 := by
  rw [byteWindow, g43_fst, g43_snd, g43_third, sextetWindow]
  omega

theorem g34_eq_iff {b0 b1 b2 : Byte} {s0 s1 s2 s3 : Sextet} :
    g34 b0 b1 b2 = (s0, s1, s2, s3) ↔ byteWindow b0 b1 b2 = sextetWindow s0 s1 s2 s3 := by
  rw [← sextetWindow_g34]
  exact sextetWindow_inj.symm

theorem g43_eq_iff {v0 v1 v2 v3 : Sextet} {b0 b1 b2 : Byte} :
    g43 v0 v1 v2 v3 = (b0, b1, b2) ↔ byteWindow b0 b1 b2 = sextetWindow v0 v1 v2 v3 := by
  rw [← byteWindow_g43, eq_comm (a := byteWindow b0 b1 b2)]
  exact byteWindow_inj.symm

/-- Settles O35: `G34` keeps the window, and the window determines the sextets. -/
theorem windowHasTwoReadings : Obligations.WindowHasTwoReadings :=
  fun _ _ _ _ _ _ _ => g34_eq_iff

/-- Settles O34: `G34` and `G43` each relate the bytes and the sextets of one window. -/
theorem gearboxIsABijection : Obligations.GearboxIsABijection :=
  ⟨fun _ _ _ _ _ _ _ h => g43_eq_iff.2 (g34_eq_iff.1 h), fun _ _ _ _ _ _ _ h => g34_eq_iff.2 (g43_eq_iff.1 h)⟩

end Sys2Proof.Machine
end

section
/-! The arithmetic of the length commands (40_length.md R71, R72, R74). -/

namespace Sys2Proof.Machine

/-! `enclen` and its bounds (R72). -/

theorem enclen_max : enclen (2 ^ 31 - 1) = 2863311532 := rfl

theorem enclen_mod_four (n : Nat) : enclen n % 4 = 0 := Nat.mul_mod_right 4 _

/-- Three bytes for each quantum of the text. -/
theorem three_mul_enclen_div_four (n : Nat) : 3 * enclen n / 4 = 3 * ((n + 2) / 3) := by
  unfold enclen
  omega

/-- The text of an input a command accepts, with its terminator, has a length that fits in a word. -/
theorem enclen_succ_lt {n : Nat} (h : n ≤ 2 ^ 31 - 1) : enclen n + 1 < 2 ^ 32 := by
  have hmono : enclen n ≤ 2863311532 := enclen_max ▸ enclen_mono h
  omega

/-- Settles O36: the bounds by monotonicity and the value at `2^31 - 1`, the last law by the bytes per quantum. -/
theorem textLengthBounds : Obligations.TextLengthBounds := by
  intro n n' maxLen hn hmax
  have hle : n ≤ 2 ^ 31 - 1 := hn.trans hmax
  rw [three_mul_enclen_div_four]
  exact ⟨enclen_mono hle, enclen_max, enclen_succ_lt hle, by omega, by decide, enclen_mono, enclen_mod_four n,
    by omega, by omega⟩

/-! `padcount` and `declen` look at the last two characters only (R74). -/

theorem textBytes_congr {T T' : Nat → Byte} {L : Nat} (hL : 0 < L) (h : ∀ a, a < L → T a = T' a) :
    textBytes T L = textBytes T' L := by
  rw [textBytes, textBytes, textPads_congr hL h]

theorem lastQuantumOk_congr {T T' : Nat → Byte} {L : Nat} (hL : 0 < L) (h : ∀ a, a < L → T a = T' a) :
    lastQuantumOk T L ↔ lastQuantumOk T' L := by
  simp only [lastQuantumOk, h (L - 2) (by omega), h (L - 1) (by omega)]

/-! The text of `n` bytes (R76). -/

/-- A character is `=` exactly where the byte it would finish is absent (41_encode.md R81). -/
theorem encCharAt_eq_pad_iff {v : Variant} {B : Nat → Byte} {n k : Nat} :
    encCharAt v B n k = Config.pad ↔ n < 3 * (k / 4) + k % 4 := by
  unfold encCharAt
  split
  · exact iff_of_true rfl ‹_›
  · exact iff_of_false (alpha_ne_pad v _) ‹_›

section
variable (v : Variant) (B : Nat → Byte) {n : Nat} (hn : 1 ≤ n)
include hn

theorem encCharAt_last_eq_pad_iff : encCharAt v B n (enclen n - 1) = Config.pad ↔ n % 3 ≠ 0 := by
  rw [encCharAt_eq_pad_iff, enclen]
  omega

theorem encCharAt_secondToLast_eq_pad_iff : encCharAt v B n (enclen n - 2) = Config.pad ↔ n % 3 = 1 := by
  rw [encCharAt_eq_pad_iff, enclen]
  omega

theorem textPads_encCharAt : textPads (encCharAt v B n) (enclen n) = (3 - n % 3) % 3 := by
  simp only [textPads, encCharAt_last_eq_pad_iff v B hn, encCharAt_secondToLast_eq_pad_iff v B hn]
  split
  · omega
  · split <;> omega

theorem textBytes_encCharAt : textBytes (encCharAt v B n) (enclen n) = n := by
  rw [textBytes, textPads_encCharAt v B hn, enclen]
  omega

theorem lastQuantumOk_encCharAt : lastQuantumOk (encCharAt v B n) (enclen n) := by
  rw [lastQuantumOk, encCharAt_last_eq_pad_iff v B hn, encCharAt_secondToLast_eq_pad_iff v B hn]
  omega

end

end Sys2Proof.Machine
end

section
/-! The length commands, case by case, and what they have in common with `ENC` and `DEC` (40_length.md R73 to R78). -/

namespace Sys2Proof.Machine

/-- A command rejects the lengths of its row before it looks at anything else (60_exceptions.md R113, R119). -/
theorem exec_of_lengthBad {i : Instr} {s : State} (h : lengthBad i s.len.toNat s.params.maxLen) :
    exec i s = .next (s.raise .length 0) := by
  by_cases hmax : s.params.maxLen < s.len.toNat
  · cases i <;> exact if_pos hmax
  have hrow := h.resolve_left hmax
  cases i with
  | enclen => exact hrow.elim
  | enc => exact hrow.elim
  | encblk =>
    have hrange : s.lenOperand < 1 ∨ 3 < s.lenOperand := by
      obtain ⟨h1, h2, h3⟩ := hrow
      unfold State.lenOperand
      omega
    exact (if_neg hmax).trans (if_pos hrange)
  | declen => exact (if_neg hmax).trans (if_pos hrow)
  | dec => exact (if_neg hmax).trans (if_pos hrow)
  | decblk => exact (if_neg hmax).trans (if_pos hrow)

theorem exec_enclen_of_le {s : State} (h : s.len.toNat ≤ s.params.maxLen) :
    exec .enclen s = .next (s.complete (enclen s.len.toNat)) :=
  if_neg (Nat.not_lt.2 h)

section
variable {s : State} (hlen : ¬ lengthBad .declen s.len.toNat s.params.maxLen)
include hlen

/-- A pad in the last place but one, and none in the last (R75). -/
theorem exec_declen_of_not_lastQuantumOk (hq : ¬ lastQuantumOk s.ibufAt s.len.toNat) :
    exec .declen s = .next (s.raise .pad (s.len.toNat - 2)) := by
  obtain ⟨hmax, hrow⟩ := not_or.1 hlen
  obtain ⟨hy, hz⟩ := Classical.not_imp.1 hq
  exact (if_neg hmax).trans ((if_neg hrow).trans (if_pos ⟨hy, hz⟩))

theorem exec_declen_of_lastQuantumOk (hq : lastQuantumOk s.ibufAt s.len.toNat) :
    exec .declen s = .next (s.complete (textBytes s.ibufAt s.len.toNat)) := by
  obtain ⟨hmax, hrow⟩ := not_or.1 hlen
  rw [← State.declen_eq]
  exact (if_neg hmax).trans ((if_neg hrow).trans (if_neg fun ⟨hy, hz⟩ => hz (hq hy)))

end

/-- Settles O15, by whether `LEN` exceeds `MAXLEN`. -/
theorem enclenComputesTheTextLength : Obligations.EnclenComputesTheTextLength := by
  intro s ⟨_, hwf⟩
  refine ⟨fun hlong => exec_of_lengthBad (.inl hlong), fun hle => ⟨_, exec_enclen_of_le hle, ?_⟩⟩
  have hfits := enclen_succ_lt (hle.trans hwf)
  rw [BitVec.toNat_ofNat, Nat.mod_eq_of_lt (by omega), enclen]

/-- Settles O16, by the length and then the last two characters. -/
theorem declenComputesTheByteCount : Obligations.DeclenComputesTheByteCount := by
  rintro s L rfl -
  refine ⟨fun hbad => exec_of_lengthBad hbad, fun hle hpos hquanta => ?_⟩
  have hlen : ¬ lengthBad .declen s.len.toNat s.params.maxLen := by
    unfold lengthBad
    omega
  refine ⟨fun hy hz => exec_declen_of_not_lastQuantumOk hlen fun hq => hz (hq hy), fun hq =>
    ⟨_, exec_declen_of_lastQuantumOk hlen hq, ?_⟩⟩
  have hfits := textBytes_le s.ibufAt s.len.toNat
  rw [BitVec.toNat_ofNat, Nat.mod_eq_of_lt (hfits.trans_lt s.len.isLt), textBytes]

/-! `DECLEN` after `ENC` (R76). -/

theorem exec_enc_of_room {s : State} (hlen : s.len.toNat ≤ s.params.maxLen)
    (hcap : enclen s.len.toNat + 1 ≤ s.ocap.toNat) :
    exec .enc s =
      .next (s.deliver (encText s.params.variant (s.input s.len.toNat)) (enclen s.len.toNat)) :=
  (if_neg (Nat.not_lt.2 hlen)).trans (if_neg (Nat.not_lt.2 hcap))

/-- The characters `ENC` leaves in `OBUF`, in closed form (41_encode.md R85). -/
theorem State.deliver_encText_obufAt (s : State) (v : Variant) (n r : Nat) {a : Nat} (ha : a < enclen n) :
    (s.deliver (encText v (s.input n)) r).obufAt a = encCharAt v s.ibufAt n a := by
  have hlen : (encText v (s.input n)).length = enclen n := by rw [encText_length, State.input_length]
  rw [State.deliver_obufAt, List.getElem?_append_left (hlen ▸ ha),
    encText_getElem v _ a (by rwa [State.input_length]), Option.getD_some, State.input_length]
  exact encCharAt_congr (fun b hb => s.input_getD hb) a

/-- Settles O39: `OBUF` holds the characters of the closed form, and so does `IBUF` of the second machine. -/
theorem declenOfEncodedTextIsTheInputLength : Obligations.DeclenOfEncodedTextIsTheInputLength := by
  rintro s n m rfl hn hle hm hcap
  obtain rfl : m = enclen s.len.toNat := hm
  have hpos : 0 < enclen s.len.toNat := hn.trans (le_enclen _)
  refine ⟨_, exec_enc_of_room hle hcap, rfl, ?_⟩
  have htext := fun a => s.deliver_encText_obufAt s.params.variant s.len.toNat (enclen s.len.toNat) (a := a)
  refine ⟨(textPads_congr hpos htext).trans (textPads_encCharAt _ _ hn),
    (textBytes_congr hpos htext).trans (textBytes_encCharAt _ _ hn), fun u hparams hmax hulen hibuf => ?_⟩
  have hul : u.len.toNat = enclen s.len.toNat := by
    have := s.ocap.isLt
    rw [hulen, State.deliver_result, BitVec.toNat_ofNat, Nat.mod_eq_of_lt (by omega)]
  have hutext : ∀ a, a < enclen s.len.toNat → u.ibufAt a = encCharAt s.params.variant s.ibufAt s.len.toNat a :=
    fun a ha => (hibuf a ha).trans (htext a ha)
  have hlen : ¬ lengthBad .declen u.len.toNat u.params.maxLen := by
    rw [hparams, hul]
    have := enclen_mod_four s.len.toNat
    unfold lengthBad
    omega
  have hq : lastQuantumOk u.ibufAt u.len.toNat :=
    hul ▸ (lastQuantumOk_congr hpos hutext).2 (lastQuantumOk_encCharAt _ _ hn)
  refine ⟨_, exec_declen_of_lastQuantumOk hlen hq, rfl, ?_⟩
  rw [State.complete_result, hul, textBytes_congr hpos hutext, textBytes_encCharAt _ _ hn, BitVec.ofNat_toNat,
    BitVec.setWidth_eq]

/-! `DECLEN` against `DEC` (R78). -/

/-- What a successful `DEC` of a text that is not empty says of the text, and what it returns (42_decode.md R108). -/
theorem exec_dec_success {s t : State} (hpos : 0 < s.len.toNat) (h : exec .dec s = .next t)
    (hok : t.status = statusWord .ok) :
    ¬ lengthBad .dec s.len.toNat s.params.maxLen ∧ allAcceptable s.params.variant s.ibufAt s.len.toNat ∧
      t = s.deliver (decText s.params.variant (s.input s.len.toNat)) (textBytes s.ibufAt s.len.toNat) := by
  have hnotRaise : ∀ e pos, e ≠ .ok → exec .dec s ≠ .next (s.raise e pos) := fun e pos he hr => by
    cases h.symm.trans hr
    exact he (statusWord_injective hok)
  have hlen : ¬ lengthBad .dec s.len.toNat s.params.maxLen := fun hbad =>
    hnotRaise .length 0 (by decide) (exec_of_lengthBad hbad)
  obtain ⟨hmax, hrow⟩ := not_or.1 hlen
  have hscan := scan_input_means s.params.variant s s.len.toNat
  rw [exec_dec, execDec, if_neg hmax, if_neg hrow, if_neg hpos.ne'] at h hnotRaise
  cases hc : scan s.params.variant (s.input s.len.toNat) with
  | badChar k => exact absurd (by rw [hc]) (hnotRaise .char k (by decide))
  | badPad k => exact absurd (by rw [hc]) (hnotRaise .pad k (by decide))
  | ok =>
    rw [hc] at hscan
    simp only [hc, State.declen_eq] at h hnotRaise
    split at h
    · exact absurd (if_pos ‹_›) (hnotRaise .bufsz 0 (by decide))
    · cases h
      exact ⟨hlen, hscan, rfl⟩

/-- A non-empty text `DEC` accepts is one `DECLEN` accepts, with the same `RESULT`. -/
theorem exec_declen_of_dec_success {s t : State} (hpos : 0 < s.len.toNat) (h : exec .dec s = .next t)
    (hok : t.status = statusWord .ok) :
    exec .declen s = .next { s with status := 0x01, result := t.result, epos := 0 } := by
  obtain ⟨hlen, hacc, rfl⟩ := exec_dec_success hpos h hok
  unfold lengthBad at hlen
  have hdeclen : ¬ lengthBad .declen s.len.toNat s.params.maxLen := by
    unfold lengthBad
    omega
  exact exec_declen_of_lastQuantumOk hdeclen (lastQuantumOk_of_allAcceptable (by omega) hacc)

/-- Two machines that agree on `LEN`, `MAXLEN` and the last two characters get the same answer from `DECLEN`. -/
theorem exec_declen_sameTail {s s' : State} (hmax : s'.params.maxLen = s.params.maxLen) (hlen : s'.len = s.len)
    (hy : s'.ibufAt (s.len.toNat - 2) = s.ibufAt (s.len.toNat - 2))
    (hz : s'.ibufAt (s.len.toNat - 1) = s.ibufAt (s.len.toNat - 1)) :
    ∃ st r e, exec .declen s = .next { s with status := st, result := r, epos := e } ∧
      exec .declen s' = .next { s' with status := st, result := r, epos := e } := by
  have hbad : lengthBad .declen s'.len.toNat s'.params.maxLen ↔ lengthBad .declen s.len.toNat s.params.maxLen := by
    rw [hmax, hlen]
  have hquantum : lastQuantumOk s'.ibufAt s'.len.toNat ↔ lastQuantumOk s.ibufAt s.len.toNat := by
    simp only [lastQuantumOk, hlen, hy, hz]
  have hbytes : textBytes s'.ibufAt s'.len.toNat = textBytes s.ibufAt s.len.toNat := by
    simp only [textBytes, textPads, hlen, hy, hz]
  by_cases hb : lengthBad .declen s.len.toNat s.params.maxLen
  · exact ⟨_, _, _, exec_of_lengthBad hb, exec_of_lengthBad (hbad.2 hb)⟩
  have hb' := mt hbad.1 hb
  by_cases hq : lastQuantumOk s.ibufAt s.len.toNat
  · exact ⟨_, _, _, exec_declen_of_lastQuantumOk hb hq, hbytes ▸ exec_declen_of_lastQuantumOk hb' (hquantum.2 hq)⟩
  · exact ⟨_, _, _, exec_declen_of_not_lastQuantumOk hb hq,
      hlen ▸ exec_declen_of_not_lastQuantumOk hb' (mt hquantum.1 hq)⟩

/-- A machine whose text is `"===="`, the example of R78. -/
def fourPads : State :=
  { State.reset with len := 4, ibuf := [(0, 0x3D), (1, 0x3D), (2, 0x3D), (3, 0x3D)] }

/-- Settles O31: `"===="` is the text that `DECLEN` accepts, with `RESULT = 1`, and `DEC` rejects at its first pad. -/
theorem declenIsASizeNotAValidator : Obligations.DeclenIsASizeNotAValidator := by
  refine ⟨fun s t hpos h hok => exec_declen_of_dec_success hpos h hok, fun s s' => exec_declen_sameTail, ?_⟩
  exact ⟨fourPads, fourPads.complete 1, fourPads.raise .pad 0, by decide, rfl, rfl, rfl, by decide⟩

end Sys2Proof.Machine
end

section
/-! The encode commands, outcome by outcome (41_encode.md R84, R88). -/

namespace Sys2Proof.Machine

/-- Once the length is accepted, `ENC` looks at the capacity (60_exceptions.md R115). -/
theorem exec_enc_of_short {s : State} (hlen : s.len.toNat ≤ s.params.maxLen)
    (hcap : s.ocap.toNat < enclen s.len.toNat + 1) : exec .enc s = .next (s.raise .bufsz 0) :=
  (if_neg (Nat.not_lt.2 hlen)).trans (if_pos hcap)

/-- What a successful `ENC` says of its operands, and what it returns. -/
theorem exec_enc_success {s t : State} (h : exec .enc s = .next t) (hok : t.status = statusWord .ok) :
    s.len.toNat ≤ s.params.maxLen ∧ enclen s.len.toNat + 1 ≤ s.ocap.toNat ∧
      t = s.deliver (encText s.params.variant (s.input s.len.toNat)) (enclen s.len.toNat) := by
  have hnotRaise : ∀ e, e ≠ .ok → exec .enc s ≠ .next (s.raise e 0) := fun e he hr => by
    cases h.symm.trans hr
    exact he (statusWord_injective hok)
  have hlen : s.len.toNat ≤ s.params.maxLen :=
    Nat.not_lt.1 fun hlong => hnotRaise .length (by decide) (exec_of_lengthBad (.inl hlong))
  have hcap : enclen s.len.toNat + 1 ≤ s.ocap.toNat :=
    Nat.not_lt.1 fun hshort => hnotRaise .bufsz (by decide) (exec_enc_of_short hlen hshort)
  cases h.symm.trans (exec_enc_of_room hlen hcap)
  exact ⟨hlen, hcap, rfl⟩

/-- `RESULT` of a successful `ENC` does not wrap: the text lies below `OCAP` (R72, R88). -/
theorem exec_enc_success_result {s t : State} (h : exec .enc s = .next t) (hok : t.status = statusWord .ok) :
    t.result.toNat = enclen s.len.toNat := by
  obtain ⟨-, hcap, rfl⟩ := exec_enc_success h hok
  have hocap := s.ocap.isLt
  rw [State.deliver_result, BitVec.toNat_ofNat, Nat.mod_eq_of_lt (by omega)]

/-- The characters a successful `ENC` leaves in `OBUF`. -/
theorem exec_enc_success_obufAt {s t : State} (h : exec .enc s = .next t) (hok : t.status = statusWord .ok) {a : Nat}
    (ha : a < enclen s.len.toNat) : t.obufAt a = encCharAt s.params.variant s.ibufAt s.len.toNat a := by
  obtain ⟨-, -, rfl⟩ := exec_enc_success h hok
  exact s.deliver_encText_obufAt _ _ _ ha

/-- `OBUF` after the text of `n` bytes was delivered: the text, the terminator, and the rest as before. -/
theorem State.deliver_encText_obufAt_eq (s : State) (v : Variant) (n a : Nat) :
    (s.deliver (encText v (s.input n)) (enclen n)).obufAt a =
      if a < enclen n then encCharAt v s.ibufAt n a else if a = enclen n then Config.term else s.obufAt a := by
  have hlen : (encText v (s.input n)).length = enclen n := by rw [encText_length, State.input_length]
  split
  · exact s.deliver_encText_obufAt v n _ ‹_›
  split
  · subst a
    exact s.deliver_obufAt_end hlen
  · exact s.deliver_obufAt_above hlen (by omega)

/-- Settles O18, by the length and then the capacity. -/
theorem encEncodesTheWholeInput : Obligations.EncEncodesTheWholeInput := by
  rintro s n m rfl hm
  obtain rfl : m = enclen s.len.toNat := hm
  refine ⟨fun hlong => exec_of_lengthBad (.inl hlong), exec_enc_of_short, fun hlen hcap => ?_⟩
  have hexec := exec_enc_of_room hlen hcap
  exact ⟨_, _, hexec, exec_enc_success_result hexec rfl, s.deliver_encText_obufAt_eq _ _⟩

/-! The block commands do what the drivers do on their lengths (R81, R85; 42_decode.md R100, R105). -/

/-- The driver hands an input of 1 to 3 bytes whole to `encblk` (R85). -/
theorem encText_eq_encBlk (v : Variant) : ∀ {B : List Byte}, 1 ≤ B.length → B.length ≤ 3 → encText v B = encBlk v B
  | [_], _, _ => rfl
  | [_, _], _, _ => rfl
  | [_, _, _], _, _ => rfl

theorem enclen_of_block {k : Nat} (h1 : 1 ≤ k) (h3 : k ≤ 3) : enclen k = 4 := by
  unfold enclen
  omega

/-- `ENCBLK` checks for a capacity of 5, which is what `ENC` asks for one block (R84, R88). -/
theorem exec_encblk_eq_exec_enc {s : State} (h1 : 1 ≤ s.len.toNat) (h3 : s.len.toNat ≤ 3) :
    exec .encblk s = exec .enc s := by
  have hrow : ¬ (s.len.toNat < 1 ∨ 3 < s.len.toNat) := by omega
  have htext := encText_eq_encBlk s.params.variant (B := s.input s.len.toNat) (by simpa using h1) (by simpa using h3)
  simp only [exec_encblk, exec_enc, execEncblk, execEnc, if_neg hrow, enclen_of_block h1 h3, htext]

/-- A text of one quantum is its own last quantum: `decode` hands it whole to `decblk` (R105). -/
theorem exec_decblk_eq_exec_dec {s : State} (h : s.len.toNat = 4) : exec .decblk s = exec .dec s := by
  have htext : decText s.params.variant (s.input 4) =
    decBlk s.params.variant (s.ibufAt 0) (s.ibufAt 1) (s.ibufAt 2) (s.ibufAt 3) := rfl
  simp [execDecblk, execDec, h, htext, State.declen]

/-- Settles O30: on these lengths both commands of each family make the same checks and give the same text. -/
theorem blockCommandsAgreeWithDrivers : Obligations.BlockCommandsAgreeWithDrivers :=
  fun _ => ⟨exec_encblk_eq_exec_enc, exec_decblk_eq_exec_dec⟩

/-- Settles O17: on its lengths `ENCBLK` is `ENC`, whose text is then 4 characters long. -/
theorem encblkEncodesOneFinalBlock : Obligations.EncblkEncodesOneFinalBlock := by
  rintro s k rfl
  have hbad : s.params.maxLen < s.len.toNat ∨ s.len.toNat < 1 ∨ 3 < s.len.toNat →
      lengthBad .encblk s.len.toNat s.params.maxLen := by
    unfold lengthBad
    omega
  refine ⟨fun h => exec_of_lengthBad (hbad h), fun hlen h1 h3 => ?_⟩
  have hfour := enclen_of_block h1 h3
  rw [exec_encblk_eq_exec_enc h1 h3]
  refine ⟨fun hcap => exec_enc_of_short hlen (by omega), fun hcap => ?_⟩
  have hobuf := s.deliver_encText_obufAt_eq s.params.variant s.len.toNat
  rw [exec_enc_of_room hlen (by omega)]
  rw [hfour] at hobuf ⊢
  exact ⟨_, rfl, hobuf⟩

end Sys2Proof.Machine
end

section
/-! The text `ENC` writes (41_encode.md R89). -/

namespace Sys2Proof.Machine

/-! Which characters stand where (R89 b, c, d). -/

/-- The places of `=` are the last `(3 - n mod 3) mod 3` (R89 b). -/
theorem encCharAt_eq_pad_iff_place {v : Variant} {B : Nat → Byte} {n k : Nat} (hk : k < enclen n) :
    encCharAt v B n k = Config.pad ↔ enclen n ≤ k + (3 - n % 3) % 3 := by
  rw [encCharAt_eq_pad_iff]
  unfold enclen at hk ⊢
  omega

theorem encCharAt_eq_pad_or_inAlphabet (v : Variant) (B : Nat → Byte) (n k : Nat) :
    encCharAt v B n k = Config.pad ∨ inAlphabet v (encCharAt v B n k) := by
  unfold encCharAt
  split
  · exact .inl rfl
  · exact .inr ⟨_, rfl⟩

/-- A byte that is neither `=` nor in the alphabet does not stand in a text (R89 b). -/
theorem encCharAt_ne {v : Variant} {c : Byte} (hpad : c ≠ Config.pad) (hc : ¬ inAlphabet v c) (B : Nat → Byte)
    (n k : Nat) : encCharAt v B n k ≠ c := by
  rintro rfl
  exact (encCharAt_eq_pad_or_inAlphabet v B n k).elim hpad hc

theorem urlSafe_symbols_not_inAlphabet_standard : ¬ inAlphabet .standard 0x2D ∧ ¬ inAlphabet .standard 0x5F := by
  decide

theorem standard_symbols_not_inAlphabet_urlSafe : ¬ inAlphabet .urlSafe 0x2B ∧ ¬ inAlphabet .urlSafe 0x2F := by
  decide

/-- Settles O40: `OBUF` holds the characters of the closed form. -/
theorem encodedTextIsAlphabetThenPads : Obligations.EncodedTextIsAlphabetThenPads := by
  rintro s t n rfl hexec hok a ha
  rw [exec_enc_success_obufAt hexec hok ha]
  refine ⟨encCharAt_eq_pad_iff_place ha, (encCharAt_eq_pad_or_inAlphabet _ _ _ _).resolve_left, fun hv => ?_,
    fun hv => ?_⟩
  · obtain ⟨h62, h63⟩ := urlSafe_symbols_not_inAlphabet_standard
    exact hv ▸ ⟨encCharAt_ne (by decide) h62 _ _ _, encCharAt_ne (by decide) h63 _ _ _⟩
  · obtain ⟨h62, h63⟩ := standard_symbols_not_inAlphabet_urlSafe
    exact hv ▸ ⟨encCharAt_ne (by decide) h62 _ _ _, encCharAt_ne (by decide) h63 _ _ _⟩

/-! Concatenation (R89 f). -/

/-- The driver takes the blocks of the first part one by one, and then stands at the start of the second. -/
theorem encText_append (v : Variant) (B' : List Byte) :
    ∀ {B : List Byte}, B.length % 3 = 0 → encText v (B ++ B') = encText v B ++ encText v B'
  | [], _ => rfl
  | b0 :: b1 :: b2 :: rest, h => by
    have hrest : rest.length % 3 = 0 := (Nat.add_mod_right _ 3).symm.trans h
    calc encText v (b0 :: b1 :: b2 :: (rest ++ B'))
      _ = encFull v b0 b1 b2 ++ (encText v rest ++ encText v B') := by rw [encText_block, encText_append v B' hrest]
      _ = encText v (b0 :: b1 :: b2 :: rest) ++ encText v B' := by rw [encText_block, List.append_assoc]

/-- Settles O41, by recursion over the blocks of the first part. -/
theorem encodingConcatenatesAtBlockBoundaries : Obligations.EncodingConcatenatesAtBlockBoundaries :=
  fun v _ B' => encText_append v B'

/-! The two variants (R89 e). -/

/-- A character of a Standard text as the UrlSafe text has it (R20, R21). -/
def urlSafeForm (c : Byte) : Byte := if c = 0x2B then 0x2D else if c = 0x2F then 0x5F else c

theorem alpha_urlSafe (x : Sextet) : alpha .urlSafe x = urlSafeForm (alpha .standard x) := by
  revert x; decide

theorem encCharAt_urlSafe (B : Nat → Byte) (n k : Nat) :
    encCharAt .urlSafe B n k = urlSafeForm (encCharAt .standard B n k) := by
  unfold encCharAt
  split
  · rfl
  · exact alpha_urlSafe _

/-- Settles O42: `ENC` checks nothing that depends on the variant, and the texts are compared character by character. -/
theorem variantsDifferOnlyAtTheTwoSymbols : Obligations.VariantsDifferOnlyAtTheTwoSymbols := by
  intro s t M hparams hexec hok
  have hresult := exec_enc_success_result hexec hok
  obtain ⟨hlen, hcap, ht⟩ := exec_enc_success hexec hok
  have hexec' := exec_enc_of_room (s := { s with params := ⟨.urlSafe, M⟩ }) (by simpa only [hparams] using hlen) hcap
  refine ⟨_, hexec', rfl, by rw [ht]; rfl, fun a ha => ?_⟩
  rw [hresult] at ha
  have hstandard := exec_enc_success_obufAt hexec hok ha
  rw [hparams] at hstandard
  rw [exec_enc_success_obufAt hexec' rfl ha, hstandard]
  exact encCharAt_urlSafe s.ibufAt s.len.toNat a

end Sys2Proof.Machine
end

section
/-! The decode commands, outcome by outcome (42_decode.md R103, R108). -/

namespace Sys2Proof.Machine

theorem textBytes_zero (T : Nat → Byte) : textBytes T 0 = 0 := Nat.zero_sub _

/-- The driver's bytes as one list, in closed form (R105); the empty text has none (R106). -/
theorem decText_input (v : Variant) (s : State) {L : Nat} (hL : L % 4 = 0) (h : allAcceptable v s.ibufAt L) :
    decText v (s.input L) = (List.range (textBytes s.ibufAt L)).map (decByteAt v s.ibufAt) := by
  obtain rfl | hpos := Nat.eq_zero_or_pos L
  · rw [textBytes_zero]
    rfl
  have hT : ∀ a, a < L → (s.input L).getD a 0 = s.ibufAt a := fun a ha => s.input_getD ha
  have hq := (lastQuantumOk_congr hpos hT).2 (lastQuantumOk_of_allAcceptable (by omega) h)
  obtain ⟨hlen, hbytes⟩ := decText_getElem v (s.input L) (by simpa) (by simpa) (by simpa only [State.input_length])
  rw [State.input_length, textBytes_congr hpos hT] at hlen hbytes
  refine List.ext_getElem (by simpa using hlen) fun k hk _ => ?_
  have hk' : k < 3 * (L / 4) := by
    unfold textBytes at hlen
    omega
  rw [List.getElem_eq_iff, hbytes k (hlen ▸ hk), decByteAt_congr hL hT hk', List.getElem_map, List.getElem_range]

theorem not_lengthBad_dec {L maxLen : Nat} (hle : L ≤ maxLen) (hL : L % 4 = 0) : ¬ lengthBad .dec L maxLen :=
  not_or.2 ⟨Nat.not_lt.2 hle, not_not.2 hL⟩

section
variable {s : State} (hlen : ¬ lengthBad .dec s.len.toNat s.params.maxLen)
include hlen

/-- Once the length is accepted, the first offending character decides (R93). -/
theorem exec_dec_of_firstOffender {j : Nat} (hj : firstOffender s.params.variant s.ibufAt s.len.toNat j) :
    exec .dec s = .next (s.raise (if s.ibufAt j = Config.pad then .pad else .char) j) := by
  obtain ⟨hmax, hrow⟩ := not_or.1 hlen
  have hpos : s.len.toNat ≠ 0 := Nat.ne_zero_of_lt hj.1
  have hscan := scan_input_means s.params.variant s s.len.toNat
  rw [exec_dec, execDec, if_neg hmax, if_neg hrow, if_neg hpos]
  cases hc : scan s.params.variant (s.input s.len.toNat) with
  | ok =>
    rw [hc] at hscan
    exact absurd hscan (not_allAcceptable_of_firstOffender hj)
  | badPad k =>
    rw [hc] at hscan
    obtain ⟨i, rfl, hi, hpad⟩ := hscan
    rw [firstOffender_unique hj hi, if_pos hpad, Nat.zero_add]
  | badChar k =>
    rw [hc] at hscan
    obtain ⟨i, rfl, hi, hpad⟩ := hscan
    rw [firstOffender_unique hj hi, if_neg hpad, Nat.zero_add]

/-- A text with no offending character, the empty one included, leaves the capacity to decide. -/
theorem exec_dec_of_allAcceptable (hacc : allAcceptable s.params.variant s.ibufAt s.len.toNat) :
    exec .dec s =
      if s.ocap.toNat < textBytes s.ibufAt s.len.toNat + 1 then .next (s.raise .bufsz 0)
      else .next (s.deliver (decText s.params.variant (s.input s.len.toNat)) (textBytes s.ibufAt s.len.toNat)) := by
  obtain ⟨hmax, hrow⟩ := not_or.1 hlen
  rw [exec_dec, execDec, if_neg hmax, if_neg hrow]
  split
  case isTrue hzero =>
    have hzero : s.len.toNat = 0 := hzero
    rw [hzero, textBytes_zero]
    rfl
  case isFalse hpos =>
    have hscan := scan_input_means s.params.variant s s.len.toNat
    cases hc : scan s.params.variant (s.input s.len.toNat) with
    | ok => simp only [State.declen_eq]
    | badPad k =>
      rw [hc] at hscan
      obtain ⟨i, -, hi, -⟩ := hscan
      exact absurd hacc (not_allAcceptable_of_firstOffender hi)
    | badChar k =>
      rw [hc] at hscan
      obtain ⟨i, -, hi, -⟩ := hscan
      exact absurd hacc (not_allAcceptable_of_firstOffender hi)

theorem exec_dec_of_short (hacc : allAcceptable s.params.variant s.ibufAt s.len.toNat)
    (hcap : s.ocap.toNat < textBytes s.ibufAt s.len.toNat + 1) : exec .dec s = .next (s.raise .bufsz 0) :=
  (exec_dec_of_allAcceptable hlen hacc).trans (if_pos hcap)

theorem exec_dec_of_room (hacc : allAcceptable s.params.variant s.ibufAt s.len.toNat)
    (hcap : textBytes s.ibufAt s.len.toNat + 1 ≤ s.ocap.toNat) :
    exec .dec s =
      .next (s.deliver (decText s.params.variant (s.input s.len.toNat)) (textBytes s.ibufAt s.len.toNat)) :=
  (exec_dec_of_allAcceptable hlen hacc).trans (if_neg (Nat.not_lt.2 hcap))

end

/-- `declen` of a text does not wrap in `RESULT` (R72, R108). -/
theorem toNat_ofNat_textBytes (T : Nat → Byte) (w : Word) :
    (BitVec.ofNat 32 (textBytes T w.toNat)).toNat = textBytes T w.toNat := by
  rw [BitVec.toNat_ofNat, Nat.mod_eq_of_lt ((textBytes_le T w.toNat).trans_lt w.isLt)]

/-- `OBUF` after a decoded text was delivered: its bytes, the terminator, and the rest as before. -/
theorem State.deliver_decText_obufAt_eq (s : State) {v : Variant} {L : Nat} (hL : L % 4 = 0)
    (h : allAcceptable v s.ibufAt L) (a : Nat) :
    (s.deliver (decText v (s.input L)) (textBytes s.ibufAt L)).obufAt a =
      if a < textBytes s.ibufAt L then decByteAt v s.ibufAt a
      else if a = textBytes s.ibufAt L then Config.term else s.obufAt a := by
  have hlen : (decText v (s.input L)).length = textBytes s.ibufAt L := by simp [decText_input v s hL h]
  split
  case isTrue ha => simp [State.deliver_obufAt, decText_input v s hL h, List.getElem?_append_left, ha]
  split
  · subst a
    exact s.deliver_obufAt_end hlen
  · exact s.deliver_obufAt_above hlen (by omega)

/-- The state an offending character leads to, in the words of the statements (R93, R117). -/
theorem State.raise_offender (s : State) (c : Byte) (j : Nat) :
    s.raise (if c = Config.pad then .pad else .char) j =
      { s with status := if c = 0x3D then 0x41 else 0x31, result := 0, epos := BitVec.ofNat 32 j } := by
  have hstatus : statusWord (if c = Config.pad then .pad else .char) = if c = 0x3D then 0x41 else 0x31 :=
    (apply_ite statusWord _ _ _).trans (by rw [statusWord_pad, statusWord_char]; rfl)
  rw [State.raise, hstatus]

/-- Settles O20, by the length, then the first offending character, then the capacity. -/
theorem decDecodesTheWholeText : Obligations.DecDecodesTheWholeText := by
  rintro s _ _ _ _ rfl rfl rfl rfl
  refine ⟨fun hbad => exec_of_lengthBad hbad, fun hle hL => ?_⟩
  have hlen := not_lengthBad_dec hle hL
  refine ⟨fun j hj => ?_, fun hacc => ⟨fun hcap => exec_dec_of_short hlen hacc hcap, fun hcap => ?_⟩⟩
  · rw [exec_dec_of_firstOffender hlen hj, State.raise_offender]
  · exact ⟨_, _, exec_dec_of_room hlen hacc hcap, toNat_ofNat_textBytes _ _, s.deliver_decText_obufAt_eq hL hacc⟩

/-- Settles O19: on 4 characters `DECBLK` is `DEC`. -/
theorem decblkDecodesOneFinalQuantum : Obligations.DecblkDecodesOneFinalQuantum := by
  rintro s v T n hv hT hn
  refine ⟨fun hbad => exec_of_lengthBad hbad, fun hle h4 => ?_⟩
  rw [exec_decblk_eq_exec_dec h4]
  exact (decDecodesTheWholeText s v T 4 n hv hT h4 hn).2 (h4 ▸ hle) rfl

end Sys2Proof.Machine
end

section
/-! The round trip from bytes to a text and back (42_decode.md R109, its first half). -/

namespace Sys2Proof.Machine

section
variable {v : Variant} {B : Nat → Byte} {n : Nat}

theorem byteOrZero_lt (B : Nat → Byte) (n j : Nat) : byteOrZero B n j < 256 := by
  unfold byteOrZero
  split
  · exact (B j).isLt
  · decide

theorem byteOrZero_of_le {j : Nat} (h : n ≤ j) : byteOrZero B n j = 0 := if_neg (Nat.not_lt.2 h)

theorem encWindow_lt (B : Nat → Byte) (n q : Nat) : encWindow B n q < 2 ^ 24 := by
  have h0 := byteOrZero_lt B n (3 * q)
  have h1 := byteOrZero_lt B n (3 * q + 1)
  have h2 := byteOrZero_lt B n (3 * q + 2)
  unfold encWindow
  omega

/-- Where a character is `=`, its sextet of the window is 0: the bytes it reads are absent (41_encode.md R81). -/
theorem encWindow_sextet_of_absent {q r : Nat} (hr : r < 4) (h : n < 3 * q + r) :
    encWindow B n q / 2 ^ (18 - 6 * r) % 64 = 0 := by
  have h2 : byteOrZero B n (3 * q + 2) = 0 := byteOrZero_of_le (by omega)
  have h1 : r < 3 → byteOrZero B n (3 * q + 1) = 0 := fun _ => byteOrZero_of_le (by omega)
  have h0 : r < 2 → byteOrZero B n (3 * q) = 0 := fun _ => byteOrZero_of_le (by omega)
  unfold encWindow
  interval_cases r <;> omega

/-- `REV` recovers the sextet of every character of a text, `=` included, since `REV` is 0 there. -/
theorem rev_encCharAt (q : Nat) {r : Nat} (hr : r < 4) :
    (rev v (encCharAt v B n (4 * q + r))).toNat = encWindow B n q / 2 ^ (18 - 6 * r) % 64 := by
  have hq : (4 * q + r) / 4 = q := by omega
  have hm : (4 * q + r) % 4 = r := by omega
  rw [encCharAt, hq, hm]
  split
  · rw [rev_pad, encWindow_sextet_of_absent hr ‹_›]
    rfl
  · rw [rev_alpha_index, BitVec.toNat_ofNat]

/-- The decoder sees the windows the encoder had (30_encoding.md R57). -/
theorem decWindow_encCharAt (q : Nat) : decWindow v (encCharAt v B n) q = encWindow B n q := by
  have hlt := encWindow_lt B n q
  have hsextet := fun r => rev_encCharAt (v := v) (B := B) (n := n) q (r := r)
  rw [decWindow, hsextet 1 (by decide), hsextet 2 (by decide), hsextet 3 (by decide), ← Nat.add_zero (4 * q),
    hsextet 0 (by decide)]
  omega

/-- A byte of the input is its byte of the window. -/
theorem encWindow_byte (q : Nat) {r : Nat} (hr : r < 3) :
    encWindow B n q / 2 ^ (16 - 8 * r) % 256 = byteOrZero B n (3 * q + r) := by
  have h0 := byteOrZero_lt B n (3 * q)
  have h1 := byteOrZero_lt B n (3 * q + 1)
  have h2 := byteOrZero_lt B n (3 * q + 2)
  unfold encWindow
  interval_cases r
  · rw [Nat.add_zero (3 * q)]
    omega
  · omega
  · omega

theorem decByteAt_encCharAt {a : Nat} (ha : a < n) : decByteAt v (encCharAt v B n) a = B a := by
  apply BitVec.eq_of_toNat_eq
  rw [decByteAt, decWindow_encCharAt, BitVec.toNat_ofNat, encWindow_byte _ (Nat.mod_lt a (by decide)),
    Nat.div_add_mod, byteOrZero, if_pos ha]

/-- A text the encoder wrote is well-formed (R94). -/
theorem allAcceptable_encCharAt : allAcceptable v (encCharAt v B n) (enclen n) := by
  intro j hj
  have hn : 1 ≤ n := by
    unfold enclen at hj
    omega
  refine ⟨fun ⟨hpad, hplace⟩ => hplace ?_, fun ⟨hpad, halpha⟩ =>
    (encCharAt_eq_pad_or_inAlphabet v B n j).elim hpad halpha⟩
  rw [encCharAt_eq_pad_iff_place hj] at hpad
  rw [encCharAt_last_eq_pad_iff v B hn]
  omega

/-- `declen` of the text of `n` bytes is `n` (40_length.md R76), the empty text included. -/
theorem textBytes_of_encodedText {T : Nat → Byte} (htext : ∀ a, a < enclen n → T a = encCharAt v B n a) :
    textBytes T (enclen n) = n := by
  obtain rfl | hn := Nat.eq_zero_or_pos n
  · exact textBytes_zero T
  · exact (textBytes_congr (Nat.lt_of_lt_of_le hn (le_enclen n)) htext).trans (textBytes_encCharAt v B hn)

end

/-- A machine whose `IBUF` holds the text of `n` bytes decodes them. -/
theorem exec_dec_of_encodedText {u : State} {B : Nat → Byte} {n : Nat} (hul : u.len.toNat = enclen n)
    (hmax : enclen n ≤ u.params.maxLen) (hcap : n + 1 ≤ u.ocap.toNat)
    (htext : ∀ a, a < enclen n → u.ibufAt a = encCharAt u.params.variant B n a) :
    ∃ r, exec .dec u = .next r ∧ r.status = 0x01 ∧ r.result = BitVec.ofNat 32 n ∧ ∀ a, a < n → r.obufAt a = B a := by
  have hL := enclen_mod_four n
  have hacc : allAcceptable u.params.variant u.ibufAt (enclen n) :=
    allAcceptable_congr (fun a ha => (htext a ha).symm) allAcceptable_encCharAt
  have hbytes := textBytes_of_encodedText htext
  have hlen : ¬ lengthBad .dec u.len.toNat u.params.maxLen := hul ▸ not_lengthBad_dec hmax hL
  have hexec := exec_dec_of_room hlen (hul ▸ hacc) (by rwa [hul, hbytes])
  rw [hul] at hexec
  refine ⟨_, hexec, rfl, congrArg (BitVec.ofNat 32) hbytes, fun a ha => ?_⟩
  rw [State.deliver_decText_obufAt_eq _ hL hacc, hbytes, if_pos ha,
    decByteAt_congr hL htext (by unfold enclen; omega), decByteAt_encCharAt ha]

/-- Settles O37: `OBUF` holds the text in closed form, and so does `IBUF` of the second machine. -/
theorem decodeOfEncodeIsTheInput : Obligations.DecodeOfEncodeIsTheInput := by
  rintro s n m rfl hm hmax hcap
  obtain rfl : m = enclen s.len.toNat := hm
  have hexec := exec_enc_of_room ((le_enclen _).trans hmax) hcap
  have hresult := exec_enc_success_result hexec rfl
  refine ⟨_, hexec, rfl, hresult, fun u hparams hulen hucap hibuf => ?_⟩
  have htext : ∀ a, a < enclen s.len.toNat → u.ibufAt a = encCharAt u.params.variant s.ibufAt s.len.toNat a :=
    fun a ha => by rw [hibuf a ha, exec_enc_success_obufAt hexec rfl ha, hparams]
  have hdec := exec_dec_of_encodedText (hulen ▸ hresult) (hparams ▸ hmax) hucap htext
  rwa [BitVec.ofNat_toNat, BitVec.setWidth_eq] at hdec

end Sys2Proof.Machine
end

section
/-! The round trip from a canonical text to bytes and back (42_decode.md R109, its second half). -/

namespace Sys2Proof.Machine

theorem textPads_pos_iff {T : Nat → Byte} {L : Nat} : 0 < textPads T L ↔ T (L - 1) = Config.pad := by
  unfold textPads
  split
  case isTrue h => exact iff_of_true (by decide) h.2
  split
  · exact iff_of_true (by decide) ‹_›
  · exact iff_of_false (by decide) ‹_›

theorem textPads_eq_two_iff {T : Nat → Byte} {L : Nat} :
    textPads T L = 2 ↔ T (L - 2) = Config.pad ∧ T (L - 1) = Config.pad := by
  by_cases hz : T (L - 1) = Config.pad <;> simp [textPads, hz]

/-- The discarded bits of the last data character are zero (R102). -/
def discardedBitsZero (v : Variant) (T : Nat → Byte) (L : Nat) : Prop :=
  (textPads T L = 2 → (rev v (T (L - 3))).toNat % 16 = 0) ∧ (textPads T L = 1 → (rev v (T (L - 2))).toNat % 4 = 0)

theorem decWindow_lt (v : Variant) (T : Nat → Byte) (q : Nat) : decWindow v T q < 2 ^ 24 := by
  have h0 := (rev v (T (4 * q))).isLt
  have h1 := (rev v (T (4 * q + 1))).isLt
  have h2 := (rev v (T (4 * q + 2))).isLt
  have h3 := (rev v (T (4 * q + 3))).isLt
  unfold decWindow
  omega

/-- A sextet of the window is the one its character stands for. -/
theorem decWindow_sextet {v : Variant} {T : Nat → Byte} (q : Nat) {r : Nat} (hr : r < 4) :
    BitVec.ofNat 6 (decWindow v T q / 2 ^ (18 - 6 * r)) = rev v (T (4 * q + r)) := by
  have h0 := (rev v (T (4 * q))).isLt
  have h1 := (rev v (T (4 * q + 1))).isLt
  have h2 := (rev v (T (4 * q + 2))).isLt
  have h3 := (rev v (T (4 * q + 3))).isLt
  apply BitVec.eq_of_toNat_eq
  rw [BitVec.toNat_ofNat, decWindow]
  interval_cases r
  · rw [Nat.add_zero (4 * q)]
    omega
  · omega
  · omega
  · omega

theorem enclen_textBytes (T : Nat → Byte) {L : Nat} (hL : L % 4 = 0) : enclen (textBytes T L) = L := by
  have := textPads_le T L
  unfold enclen textBytes
  omega

section
variable {v : Variant} {T : Nat → Byte} {L : Nat} (hL : L % 4 = 0)

/-- The `=` of a well-formed text stand in its last `padcount` places (R94, 40_length.md R74). -/
theorem eq_pad_iff_place_of_allAcceptable (hacc : allAcceptable v T L) {k : Nat} (hk : k < L) :
    T k = Config.pad ↔ L ≤ k + textPads T L := by
  have hlast := textPads_pos_iff (T := T) (L := L)
  have htwo := textPads_eq_two_iff (T := T) (L := L)
  have hle := textPads_le T L
  constructor
  · intro hpad
    obtain hk1 | ⟨hk2, hz⟩ : k + 1 = L ∨ k + 2 = L ∧ T (L - 1) = Config.pad :=
      Classical.not_not.1 fun hplace => (hacc k hk).1 ⟨hpad, hplace⟩
    · have := hlast.2 (by rwa [← hk1])
      omega
    · have := htwo.2 ⟨by rwa [← hk2], hz⟩
      omega
  · intro hplace
    obtain rfl | ⟨rfl, hp⟩ : k = L - 1 ∨ k = L - 2 ∧ textPads T L = 2 := by omega
    · exact hlast.1 (by omega)
    · exact (htwo.1 hp).1

include hL

/-- The bits of the window that belong to no byte are the discarded ones and the zeros of the pads. -/
theorem decWindow_byte_of_absent (hzero : discardedBitsZero v T L) {q r : Nat} (hq : q < L / 4) (hr : r < 3)
    (habsent : textBytes T L ≤ 3 * q + r) : decWindow v T q / 2 ^ (16 - 8 * r) % 256 = 0 := by
  obtain ⟨hzero2, hzero1⟩ := hzero
  have hle := textPads_le T L
  unfold textBytes at habsent
  obtain rfl : L = 4 * q + 4 := by omega
  have hs3 : (rev v (T (4 * q + 3))).toNat = 0 := by
    rw [show T (4 * q + 3) = Config.pad from textPads_pos_iff.1 (show 0 < textPads T (4 * q + 4) by omega), rev_pad]
    rfl
  have hs2 : textPads T (4 * q + 4) = 2 → (rev v (T (4 * q + 2))).toNat = 0 := fun h => by
    rw [show T (4 * q + 2) = Config.pad from (textPads_eq_two_iff.1 h).1, rev_pad]
    rfl
  rw [show 4 * q + 4 - 3 = 4 * q + 1 by omega] at hzero2
  rw [show 4 * q + 4 - 2 = 4 * q + 2 by omega] at hzero1
  unfold decWindow
  interval_cases r <;> omega

theorem byteOrZero_decByteAt (hzero : discardedBitsZero v T L) {q r : Nat} (hq : q < L / 4) (hr : r < 3) :
    byteOrZero (decByteAt v T) (textBytes T L) (3 * q + r) = decWindow v T q / 2 ^ (16 - 8 * r) % 256 := by
  unfold byteOrZero
  split
  · rw [decByteAt, BitVec.toNat_ofNat, show (3 * q + r) / 3 = q by omega, show (3 * q + r) % 3 = r by omega]
  · rw [decWindow_byte_of_absent hL hzero hq hr (by omega)]

/-- The encoder sees the windows the decoder had (30_encoding.md R57). -/
theorem encWindow_decByteAt (hzero : discardedBitsZero v T L) {q : Nat} (hq : q < L / 4) :
    encWindow (decByteAt v T) (textBytes T L) q = decWindow v T q := by
  have hlt := decWindow_lt v T q
  have hbyte := fun r => byteOrZero_decByteAt hL hzero hq (r := r)
  rw [encWindow, hbyte 1 (by decide), hbyte 2 (by decide), ← Nat.add_zero (3 * q), hbyte 0 (by decide)]
  omega

/-- The closed form of the text of the decoded bytes is the text. -/
theorem encCharAt_decByteAt (hacc : allAcceptable v T L) (hzero : discardedBitsZero v T L) {k : Nat} (hk : k < L) :
    encCharAt v (decByteAt v T) (textBytes T L) k = T k := by
  have hplace := eq_pad_iff_place_of_allAcceptable hacc hk
  have habsent : textBytes T L < 3 * (k / 4) + k % 4 ↔ L ≤ k + textPads T L := by
    have := textPads_le T L
    unfold textBytes
    omega
  unfold encCharAt
  split
  case isTrue h => exact (hplace.2 (habsent.1 h)).symm
  case isFalse h =>
    have hdata : T k ≠ Config.pad := mt hplace.1 (mt habsent.2 h)
    have hvalid : valid v (T k) = true :=
      (valid_iff_exists v _).2 (Classical.not_not.1 fun halpha => (hacc k hk).2 ⟨hdata, halpha⟩)
    rw [encWindow_decByteAt hL hzero (by omega), decWindow_sextet _ (Nat.mod_lt k (by decide)), Nat.div_add_mod,
      alpha_rev_of_valid hvalid]

end

/-- Settles O38: `OBUF` holds the bytes in closed form, and so does `IBUF` of the second machine. -/
theorem encodeOfDecodeIsTheCanonicalText : Obligations.EncodeOfDecodeIsTheCanonicalText := by
  rintro s L rfl - hmax hL hacc hcap hzero2 hzero1
  have hresult := toNat_ofNat_textBytes s.ibufAt s.len
  refine ⟨_, exec_dec_of_room (not_lengthBad_dec hmax hL) hacc hcap, rfl, fun u hparams hulen hucap hibuf => ?_⟩
  rw [State.deliver_result] at hulen hibuf
  rw [hresult] at hibuf
  have hul : u.len.toNat = textBytes s.ibufAt s.len.toNat := hulen ▸ hresult
  have henc : enclen u.len.toNat = s.len.toNat := hul ▸ enclen_textBytes s.ibufAt hL
  have hbytes : ∀ a, a < u.len.toNat → u.ibufAt a = decByteAt s.params.variant s.ibufAt a := fun a ha => by
    rw [hul] at ha
    rw [hibuf a ha, s.deliver_decText_obufAt_eq hL hacc, if_pos ha]
  have hule : u.len.toNat ≤ u.params.maxLen := by
    have := textBytes_le s.ibufAt s.len.toNat
    rw [hparams]
    omega
  have hexec := exec_enc_of_room hule (by rwa [henc])
  refine ⟨_, hexec, rfl, BitVec.eq_of_toNat_eq ((exec_enc_success_result hexec rfl).trans henc), fun a ha => ?_⟩
  rw [exec_enc_success_obufAt hexec rfl (by rwa [henc]), encCharAt_congr hbytes, hul, hparams,
    encCharAt_decByteAt hL hacc ⟨hzero2, hzero1⟩ ha]

end Sys2Proof.Machine
end

section
/-! The bits of the last data character that belong to no byte (42_decode.md R102). -/

namespace Sys2Proof.Machine

theorem ne_pad_of_inAlphabet {v : Variant} {c : Byte} (h : inAlphabet v c) : c ≠ Config.pad := by
  obtain ⟨x, rfl⟩ := h
  exact alpha_ne_pad v x

/-- `T'` is the padded text `T` with another last data character, at `j`, of the same used bits: `k` is 2 to the
number of its discarded bits. -/
structure SameUsedBits (v : Variant) (T T' : Nat → Byte) (L j k : Nat) : Prop where
  quantum : L % 4 = 0
  place : textPads T L = 2 ∧ j + 3 = L ∧ k = 16 ∨ textPads T L = 1 ∧ j + 2 = L ∧ k = 4
  others : ∀ a, a ≠ j → T' a = T a
  data : inAlphabet v (T' j)
  used : (rev v (T' j)).toNat / k = (rev v (T j)).toNat / k

namespace SameUsedBits
variable {v : Variant} {T T' : Nat → Byte} {L j k : Nat} (h : SameUsedBits v T T' L j k)
include h

theorem last : T' (L - 1) = T (L - 1) := h.others _ (by have := h.place; omega)

theorem acceptable (hacc : allAcceptable v T L) : allAcceptable v T' L := fun a ha => by
  obtain rfl | hne := eq_or_ne a j
  · exact ⟨fun hbad => ne_pad_of_inAlphabet h.data hbad.1, fun hbad => hbad.2 h.data⟩
  · simpa only [badPadAt, badCharAt, h.others a hne, h.last] using hacc a ha

theorem textPads_eq : textPads T' L = textPads T L := by
  obtain ⟨-, hj, -⟩ | ⟨hone, hj, -⟩ := h.place
  · simp only [textPads, h.last, h.others (L - 2) (by omega)]
  · have hpos : 0 < textPads T' L := textPads_pos_iff.2 (h.last.trans (textPads_pos_iff.1 (by omega)))
    have hnotTwo : textPads T' L ≠ 2 := fun htwo => by
      obtain ⟨hy, -⟩ := textPads_eq_two_iff.1 htwo
      rw [← hj] at hy
      exact ne_pad_of_inAlphabet h.data hy
    have hle := textPads_le T' L
    omega

theorem textBytes_eq : textBytes T' L = textBytes T L := by rw [textBytes, textBytes, h.textPads_eq]

/-- The part of the window down to an emitted byte holds no discarded bit. -/
theorem decWindow_div_eq {q r : Nat} (hr : r < 3) (hemitted : 3 * q + r < textBytes T L) :
    decWindow v T' q / 2 ^ (16 - 8 * r) = decWindow v T q / 2 ^ (16 - 8 * r) := by
  have hL := h.quantum
  have hused := h.used
  have hs : ∀ i, i ≠ j → rev v (T' i) = rev v (T i) := fun i hi => congrArg (rev v) (h.others i hi)
  have hs0 := hs (4 * q)
  have hs1 := hs (4 * q + 1)
  have hs2 := hs (4 * q + 2)
  have hs3 := hs (4 * q + 3) (by have := h.place; omega)
  unfold textBytes at hemitted
  unfold decWindow
  rw [hs0 (by have := h.place; omega), hs3]
  obtain ⟨htwo, hj, rfl⟩ | ⟨hone, hj, rfl⟩ := h.place
  · rw [hs2 (by omega)]
    obtain rfl | hne := eq_or_ne j (4 * q + 1)
    · obtain rfl : r = 0 := by omega
      omega
    · rw [hs1 hne.symm]
  · rw [hs1 (by omega)]
    obtain rfl | hne := eq_or_ne j (4 * q + 2)
    · interval_cases r <;> omega
    · rw [hs2 hne.symm]

theorem decByteAt_eq {a : Nat} (ha : a < textBytes T L) : decByteAt v T' a = decByteAt v T a := by
  rw [decByteAt, decByteAt, h.decWindow_div_eq (Nat.mod_lt a (by decide)) (by rwa [Nat.div_add_mod])]

end SameUsedBits

/-- Both texts are accepted, their sizes are equal, and so are the bytes they decode to. -/
theorem exec_dec_alike_of_sameUsedBits {s s' : State} {j k : Nat} (hparams : s'.params = s.params)
    (hlen : s'.len = s.len) (hocap : s'.ocap = s.ocap) (hacc : allAcceptable s.params.variant s.ibufAt s.len.toNat)
    (h : SameUsedBits s.params.variant s.ibufAt s'.ibufAt s.len.toNat j k) : RunAlike .dec s s' := by
  by_cases hbad : lengthBad .dec s.len.toNat s.params.maxLen
  · exact ⟨_, _, exec_of_lengthBad hbad, exec_of_lengthBad (by rwa [hlen, hparams]), .error _ _ (by decide)⟩
  have hbad' : ¬ lengthBad .dec s'.len.toNat s'.params.maxLen := by rwa [hlen, hparams]
  have hacc' : allAcceptable s'.params.variant s'.ibufAt s'.len.toNat := by
    rw [hparams, hlen]
    exact h.acceptable hacc
  have hbytes : decText s'.params.variant (s'.input s'.len.toNat) =
      decText s.params.variant (s.input s.len.toNat) := by
    rw [hparams, hlen, decText_input _ s h.quantum hacc, decText_input _ s' h.quantum (h.acceptable hacc),
      h.textBytes_eq]
    exact List.map_congr_left fun a ha => h.decByteAt_eq (List.mem_range.1 ha)
  have hsize : textBytes s'.ibufAt s'.len.toNat = textBytes s.ibufAt s.len.toNat := by rw [hlen, h.textBytes_eq]
  have hexec := exec_dec_of_allAcceptable hbad hacc
  have hexec' := exec_dec_of_allAcceptable hbad' hacc'
  rw [hbytes, hsize, hocap] at hexec'
  split at hexec
  case isTrue hshort => exact ⟨_, _, hexec, hexec'.trans (if_pos hshort), .error _ _ (by decide)⟩
  case isFalse hroom =>
    refine ⟨_, _, hexec, hexec'.trans (if_neg hroom), .output _ _ rfl ?_⟩
    rw [decText_input _ s h.quantum hacc, List.length_map, List.length_range]

/-- Settles O43: the two runs of `DEC` end alike. -/
theorem discardedBitsDoNotMatter : Obligations.DiscardedBitsDoNotMatter := by
  rintro s s' v L j k rfl hparams hlen hocap rfl - hL hacc hplace hothers hdata hused
  obtain ⟨t, t', ht, ht', halike⟩ := exec_dec_alike_of_sameUsedBits hparams hlen hocap hacc
    ⟨hL, hplace, hothers, hdata, hused⟩
  obtain ⟨hstatus, hresult, hepos⟩ := halike.same_registers
  exact ⟨t, t', ht, ht', hstatus.symm, hresult.symm, hepos.symm, fun hok a ha =>
    (halike.same_output rfl (hok.trans statusWord_ok.symm) ha).symm⟩

end Sys2Proof.Machine
end

section
/-! How each command chooses its outcome: the length, then the first offending index, then the capacity
(60_exceptions.md R113 to R115, R119). -/

namespace Sys2Proof.Machine

/-- A text with no first offending index has no offending index (42_decode.md R93, R94). -/
theorem allAcceptable_of_no_firstOffender {v : Variant} {T : Nat → Byte} {L : Nat}
    (h : ∀ j, ¬ firstOffender v T L j) : allAcceptable v T L := fun j => by
  induction j using Nat.strong_induction_on with
  | h j ih =>
    intro hj
    exact not_or.1 fun hbad => h j ⟨hj, hbad, fun k hk => ih k hk (hk.trans hj)⟩

section
variable {i : Instr} {s : State}

theorem len_le_of_not_lengthBad (hlen : ¬ lengthBad i s.len.toNat s.params.maxLen) : s.len.toNat ≤ s.params.maxLen :=
  Nat.not_lt.1 (not_or.1 hlen).1

/-- The lengths `ENCBLK` accepts are those of one block (R113). -/
theorem len_of_not_lengthBad_encblk (hlen : ¬ lengthBad .encblk s.len.toNat s.params.maxLen) :
    1 ≤ s.len.toNat ∧ s.len.toNat ≤ 3 := by
  unfold lengthBad at hlen
  omega

/-- The length `DECBLK` accepts is that of one quantum (R113). -/
theorem len_of_not_lengthBad_decblk (hlen : ¬ lengthBad .decblk s.len.toNat s.params.maxLen) : s.len.toNat = 4 :=
  not_not.1 (not_or.1 hlen).2

/-- What `DECBLK` accepts as a length, `DEC` accepts too. -/
theorem not_lengthBad_dec_of_decblk (hlen : ¬ lengthBad .decblk s.len.toNat s.params.maxLen) :
    ¬ lengthBad .dec s.len.toNat s.params.maxLen :=
  not_lengthBad_dec (len_le_of_not_lengthBad hlen) (by rw [len_of_not_lengthBad_decblk hlen])

variable (hlen : ¬ lengthBad i s.len.toNat s.params.maxLen)
include hlen

/-- Once the length is accepted, an offending index is reported with the code of the character there (R114). -/
theorem exec_of_offender {j : Nat} (hj : offenderOf i s.params.variant s.ibufAt s.len.toNat j) :
    exec i s = .next (s.raise (if s.ibufAt j = Config.pad then .pad else .char) j) := by
  cases i with
  | enclen => exact hj.elim
  | enc => exact hj.elim
  | encblk => exact hj.elim
  | declen =>
    obtain ⟨hplace, hpad, hlast⟩ := hj
    obtain rfl : j = s.len.toNat - 2 := by omega
    rw [if_pos hpad]
    exact exec_declen_of_not_lastQuantumOk hlen fun hq => hlast (hq hpad)
  | dec => exact exec_dec_of_firstOffender hlen hj
  | decblk =>
    rw [exec_decblk_eq_exec_dec (len_of_not_lengthBad_decblk hlen)]
    exact exec_dec_of_firstOffender (not_lengthBad_dec_of_decblk hlen) hj

/-- With the length accepted and no offending index, the capacity decides (R115). -/
theorem exec_of_no_offender (hoff : ∀ j, ¬ offenderOf i s.params.variant s.ibufAt s.len.toNat j) :
    (capacityShort i s.ibufAt s.len.toNat s.ocap.toNat → exec i s = .next (s.raise .bufsz 0)) ∧
      (¬ capacityShort i s.ibufAt s.len.toNat s.ocap.toNat →
        ∃ t, exec i s = .next t ∧ t.status = statusWord .ok) := by
  have hle := len_le_of_not_lengthBad hlen
  cases i with
  | enclen => exact ⟨False.elim, fun _ => ⟨_, exec_enclen_of_le hle, rfl⟩⟩
  | enc => exact ⟨exec_enc_of_short hle, fun hroom => ⟨_, exec_enc_of_room hle (Nat.not_lt.1 hroom), rfl⟩⟩
  | encblk =>
    obtain ⟨h1, h3⟩ := len_of_not_lengthBad_encblk hlen
    have hfour := enclen_of_block h1 h3
    rw [exec_encblk_eq_exec_enc h1 h3, capacityShort, ← hfour]
    exact ⟨exec_enc_of_short hle, fun hroom => ⟨_, exec_enc_of_room hle (Nat.not_lt.1 hroom), rfl⟩⟩
  | declen =>
    have hpos : 2 ≤ s.len.toNat := by
      unfold lengthBad at hlen
      omega
    have hq : lastQuantumOk s.ibufAt s.len.toNat := fun hpad =>
      not_not.1 fun hlast => hoff (s.len.toNat - 2) ⟨Nat.sub_add_cancel hpos, hpad, hlast⟩
    exact ⟨False.elim, fun _ => ⟨_, exec_declen_of_lastQuantumOk hlen hq, rfl⟩⟩
  | dec =>
    have hacc := allAcceptable_of_no_firstOffender hoff
    exact ⟨exec_dec_of_short hlen hacc, fun hroom => ⟨_, exec_dec_of_room hlen hacc (Nat.not_lt.1 hroom), rfl⟩⟩
  | decblk =>
    have hacc := allAcceptable_of_no_firstOffender hoff
    have hdec := not_lengthBad_dec_of_decblk hlen
    rw [exec_decblk_eq_exec_dec (len_of_not_lengthBad_decblk hlen)]
    exact ⟨exec_dec_of_short hdec hacc, fun hroom => ⟨_, exec_dec_of_room hdec hacc (Nat.not_lt.1 hroom), rfl⟩⟩

end

/-- R119's order, on every state a command starts from: the length, the first offending index, the capacity, `OK`. -/
theorem first_error_of_exec {i : Instr} {s t : State} (h : exec i s = .next t) :
    (lengthBad i s.len.toNat s.params.maxLen → t.status = 0x21) ∧
    (¬ lengthBad i s.len.toNat s.params.maxLen →
      (∀ j, offenderOf i s.params.variant s.ibufAt s.len.toNat j →
        t.status = (if s.ibufAt j = 0x3D then 0x41 else 0x31) ∧ t.epos = BitVec.ofNat 32 j) ∧
      ((∀ j, ¬ offenderOf i s.params.variant s.ibufAt s.len.toNat j) →
        (capacityShort i s.ibufAt s.len.toNat s.ocap.toNat → t.status = 0x51) ∧
        (¬ capacityShort i s.ibufAt s.len.toNat s.ocap.toNat → t.status = 0x01))) := by
  refine ⟨fun hbad => ?_, fun hlen => ⟨fun j hj => ?_, fun hoff => ?_⟩⟩
  · cases h.symm.trans (exec_of_lengthBad hbad)
    rfl
  · have hexec := exec_of_offender hlen hj
    rw [State.raise_offender] at hexec
    cases h.symm.trans hexec
    exact ⟨rfl, rfl⟩
  · obtain ⟨hshort, hroom⟩ := exec_of_no_offender hlen hoff
    refine ⟨fun hcap => ?_, fun hcap => ?_⟩
    · cases h.symm.trans (hshort hcap)
      rfl
    · obtain ⟨u, hu, hok⟩ := hroom hcap
      cases h.symm.trans hu
      exact hok

/-- An accepted length is never reported as a bad one. -/
theorem status_ne_length_of_exec {i : Instr} {s t : State} (hlen : ¬ lengthBad i s.len.toNat s.params.maxLen)
    (h : exec i s = .next t) : t.status ≠ 0x21 := by
  obtain ⟨hoffender, hnone⟩ := (first_error_of_exec h).2 hlen
  by_cases hoff : ∃ j, offenderOf i s.params.variant s.ibufAt s.len.toNat j
  · obtain ⟨j, hj⟩ := hoff
    rw [(hoffender j hj).1]
    split <;> decide
  obtain ⟨hshort, hroom⟩ := hnone (not_exists.1 hoff)
  by_cases hcap : capacityShort i s.ibufAt s.len.toNat s.ocap.toNat
  · rw [hshort hcap]
    decide
  · rw [hroom hcap]
    decide

/-- Settles O21: a bad length is rejected before anything else, and an accepted one gets another code. -/
theorem lengthErrorExactlyAsTabled : Obligations.LengthErrorExactlyAsTabled := by
  intro i s
  obtain ⟨t, ht, -⟩ := exec_ends i s
  refine ⟨t, ht, ⟨fun hst => ?_, (first_error_of_exec ht).1⟩, fun hbad => ?_⟩
  · exact not_not.1 fun hlen => status_ne_length_of_exec hlen ht hst
  · cases ht.symm.trans (exec_of_lengthBad hbad)
    rfl

theorem encode_injective : Function.Injective encode := fun i j h => by
  have hdecode := congrArg decode h
  rw [decode_encode, decode_encode] at hdecode
  exact Except.ok.inj hdecode

/-- Settles O22: the command of the word, if there is one, runs on the operands as they stand, and R119's order is
the order of the commands' checks. -/
theorem oneErrorIsReportedByPriority : Obligations.OneErrorIsReportedByPriority := by
  rintro s w rest _ _ _ hp rfl rfl rfl
  by_cases hw : ∃ i, encode i = w
  case neg =>
    have hillegal : ∀ i, decode w ≠ .ok i := fun i hi => hw ⟨i, decode_eq_ok_iff.1 hi⟩
    exact ⟨_, step_writeCmd_illegal hp hillegal, fun _ => rfl, fun i hi => absurd ⟨i, hi⟩ hw⟩
  obtain ⟨i, rfl⟩ := hw
  obtain ⟨t, ht, -⟩ := exec_ends i ((s.setPending rest).storeCmd (encode i))
  refine ⟨t, (step_writeCmd_legal hp (decode_encode i)).trans ht, fun hillegal => absurd rfl (hillegal i), ?_⟩
  intro j hj
  obtain rfl := encode_injective hj
  have hreport := first_error_of_exec ht
  exact hreport

end Sys2Proof.Machine
end

section
/-! The outcome a command leaves: the illegal word, what an error writes, which codes a command can end with, and
nothing kept from an earlier outcome (60_exceptions.md R112, R117, R120, R123). -/

namespace Sys2Proof.Machine

/-- Settles O4: such a word spells no command, and the step is `illegalWord`, written out. -/
theorem illegalWordEndsWithErrCmd : Obligations.IllegalWordEndsWithErrCmd := by
  intro s w rest hp hbits
  refine step_writeCmd_illegal hp fun i hi => ?_
  obtain ⟨hrsv, hfn⟩ := (exists_decode_iff w).1 ⟨i, hi⟩
  obtain hbits | hbits := hbits
  · exact hbits ((rsvField_eq_zero_iff w).1 hrsv)
  · exact hfn ((fnField_eq_zero_iff w).2 hbits)

/-- The codes of the errors a command can end with: all but `ERR_CMD`, which is of the word (R120). -/
theorem statusWord_of_error {i : Instr} {e : ErrCode} (he : e ≠ .ok) (hm : mayEnd i e = true) :
    statusWord e = 0x21 ∨ statusWord e = 0x31 ∨ statusWord e = 0x41 ∨ statusWord e = 0x51 := by
  cases e with
  | ok => exact absurd rfl he
  | cmd => simp [mayEnd_cmd] at hm
  | length => exact .inl rfl
  | char => exact .inr (.inl rfl)
  | pad => exact .inr (.inr (.inl rfl))
  | bufsz => exact .inr (.inr (.inr rfl))

/-- Settles O23: of the three ways a command ends, the two successes have the code `OK`. -/
theorem errorWritesStatusResultEposOnly : Obligations.ErrorWritesStatusResultEposOnly := by
  intro i s t hexec hne
  cases ends_of_exec hexec with
  | error e pos he hm hpos =>
    refine ⟨rfl, statusWord_of_error he hm, fun hepos => ?_⟩
    have hpos0 : pos ≠ 0 := by
      rintro rfl
      exact hepos rfl
    obtain ⟨rfl | rfl, -⟩ := hpos hpos0
    · exact .inl rfl
    · exact .inr rfl
  | size r ht hr => exact absurd rfl hne
  | output bytes r ht hl hc hr => exact absurd rfl hne

/-! Which command can end with which code (R120). -/

/-- Some machine with legal parameters makes the command end with the code. -/
def Reaches (i : Instr) (e : ErrCode) : Prop :=
  ∃ s t : State, s.params.wf ∧ exec i s = .next t ∧ t.status = statusWord e

/-- A command ends with no code that its row of the table leaves out. -/
theorem Ends.mayEnd_of_status {i : Instr} {s t : State} {e : ErrCode} (h : Ends i s t) (he : t.status = statusWord e) :
    mayEnd i e = true := by
  cases h with
  | error e' pos _ hm _ => exact statusWord_injective he ▸ hm
  | size r ht hr => exact statusWord_injective he ▸ mayEnd_ok i
  | output bytes r ht hl hc hr => exact statusWord_injective he ▸ mayEnd_ok i

/-- A machine whose input is `text` and whose declared capacity is `cap`. -/
def holding (text : List Byte) (cap : Word) : State :=
  { State.reset with
    len := BitVec.ofNat 32 text.length, ocap := cap, ibuf := text.zipIdx.map fun p => (p.2, p.1) }

/-- An input the command accepts: one block of bytes, or one quantum `"AAAA"`. -/
def acceptedInput (i : Instr) : List Byte := List.replicate (3 + dirOf i) 0x41

theorem reaches_ok (i : Instr) : Reaches i .ok := by
  refine ⟨holding (acceptedInput i) 5, ?_⟩
  cases i <;> exact ⟨_, by decide, rfl, rfl⟩

/-- One more than the suggested `MAXLEN` is too long for every command. -/
theorem reaches_length (i : Instr) : Reaches i .length :=
  ⟨{ State.reset with len := 65536 }, _, by decide, exec_of_lengthBad (.inl (by decide)), rfl⟩

/-- `"!AAA"` offends with its first character, which is no `=`. -/
theorem reaches_char : ∀ {i : Instr}, mayEnd i .char = true → Reaches i .char
  | .dec, _ | .decblk, _ => ⟨holding [0x21, 0x41, 0x41, 0x41] 0, _, by decide, rfl, rfl⟩

/-- `"AA=A"` offends with its third character, an `=` that no other follows. -/
theorem reaches_pad : ∀ {i : Instr}, mayEnd i .pad = true → Reaches i .pad
  | .declen, _ | .dec, _ | .decblk, _ => ⟨holding [0x41, 0x41, 0x3D, 0x41] 0, _, by decide, rfl, rfl⟩

theorem reaches_bufsz : ∀ {i : Instr}, mayEnd i .bufsz = true → Reaches i .bufsz
  | .enc, _ | .encblk, _ => ⟨holding (acceptedInput .enc) 0, _, by decide, rfl, rfl⟩
  | .dec, _ | .decblk, _ => ⟨holding (acceptedInput .dec) 0, _, by decide, rfl, rfl⟩

theorem reaches_of_mayEnd {i : Instr} {e : ErrCode} (h : mayEnd i e = true) : Reaches i e := by
  cases e with
  | ok => exact reaches_ok i
  | cmd => simp [mayEnd_cmd] at h
  | length => exact reaches_length i
  | char => exact reaches_char h
  | pad => exact reaches_pad h
  | bufsz => exact reaches_bufsz h

/-- Settles O25: a machine for each "yes", and the ways a command ends for each "-". -/
theorem outcomeCodesPerCommandAsTabled : Obligations.OutcomeCodesPerCommandAsTabled := by
  refine ⟨fun i e => ⟨reaches_of_mayEnd, ?_⟩, fun s w rest hp hw => ?_⟩
  · rintro ⟨s, t, -, hexec, he⟩
    exact (ends_of_exec hexec).mayEnd_of_status he
  · exact ⟨_, step_writeCmd_illegal hp fun i hi => hw i (decode_eq_ok_iff.1 hi), rfl⟩

/-- Settles O27: the two states hold the same operands, so the runs end alike, and both write into the same `OBUF`. -/
theorem nothingOfAnEarlierOutcomeMatters : Obligations.NothingOfAnEarlierOutcomeMatters := by
  intro i s t c st r e p rs hexec
  obtain ⟨_, t', ht, ht', halike⟩ := exec_alike i (s := s)
    (s' := { s with cmd := c, status := st, result := r, epos := e, pending := p, replies := rs })
    ⟨rfl, rfl, rfl, fun _ _ => rfl⟩
  cases ht.symm.trans hexec
  rw [ht']
  cases halike with
  | error e' pos he => rfl
  | size r' htr => rfl
  | output bytes r' htr hl => rfl

end Sys2Proof.Machine
end

section
/-! What changes what, the run to the end of the queue, and the commands after a reset (70_reset_and_hazards.md
R130, R139, R141). -/

namespace Sys2Proof.Machine

/-- Only a transcoding command that succeeds writes `OBUF` (20_memory.md R36). -/
theorem Ends.success_of_obuf_ne {i : Instr} {s t : State} (h : Ends i s t) (hne : t.obuf ≠ s.obuf) :
    transcodes i = true ∧ t.status = statusWord .ok := by
  cases h with
  | error e pos he hm hp => exact absurd rfl hne
  | size r ht hr => exact absurd rfl hne
  | output bytes r ht hl hc hr => exact ⟨ht, rfl⟩

/-- Settles O11, by the cases of what a step can do. -/
theorem eachPartChangesOnlyByItsOwnTransactions : Obligations.EachPartChangesOnlyByItsOwnTransactions := by
  intro s u t rest hp hstep
  cases stepEnds_of_step hstep with
  | idle hq => cases hp.symm.trans hq
  | @command w _ i _ hq hd he =>
    cases hp.symm.trans hq
    have hends := ends_of_exec he
    obtain ⟨-, hlen, hocap, hparams, hibuf, hpending, hreplies⟩ := hends.frame
    refine ⟨hparams, hpending, absurd hlen, absurd hocap, fun _ => .inr ⟨w, rfl⟩, absurd hibuf, fun hne => ?_,
      absurd hreplies⟩
    obtain ⟨htr, hok⟩ := hends.success_of_obuf_ne hne
    exact .inr ⟨i, htr, by rw [encode_of_decode hd], hok⟩
  | @writeReg off v _ hq ha h0 =>
    cases hp.symm.trans hq
    by_cases hlen : off = 0x08
    · rw [hlen, writeRegister_len]
      simp
    by_cases hocap : off = 0x0C
    · rw [hocap, writeRegister_ocap]
      simp
    rw [writeRegister_ignored hlen hocap]
    simp
  -- The rest are one named update each: what it changes is the transaction's own part.
  | illegal hq _ | readReg hq _ =>
    cases hp.symm.trans hq
    simp
  | writeIbuf hq | readIbuf hq | readObuf hq | writeObuf hq | reset hq =>
    cases hp.symm.trans hq
    simp

/-- A run's first step, when it answers a next state. -/
theorem run_succ_of_step {s u : State} (h : step s = .next u) (k : Nat) : core.run (k + 1) s = core.run k u := by
  have hcore : core.step s = .next u := h
  simp only [Host.Core.run, hcore]

/-- Settles O14, by induction on the queue: a well-formed transaction is performed and leaves the rest of the queue. -/
theorem alignedTransactionsRunToTheEnd : Obligations.AlignedTransactionsRunToTheEnd := by
  intro s hwf
  generalize hp : s.pending = queue at hwf ⊢
  induction queue generalizing s with
  | nil => exact ⟨s, rfl, hp, rfl⟩
  | cons t rest ih =>
    obtain ⟨ht, hrest⟩ := List.forall_mem_cons.1 hwf
    obtain ⟨u, hstep⟩ := step_next_of_wf hp ht
    obtain ⟨hparams, hpending, -⟩ := eachPartChangesOnlyByItsOwnTransactions s u t rest hp hstep
    obtain ⟨v, hrun, hend, hvparams⟩ := ih u hpending hrest
    exact ⟨v, (run_succ_of_step hstep _).trans hrun, hend, hvparams.trans hparams⟩

/-! With no capacity declared, or no length (R130). -/

theorem doneField_zero : doneField 0 = false := by decide

/-- A success needs room for the terminator at least (R36), so `OCAP = 0` rules it out. -/
theorem Ends.status_ne_ok_of_no_capacity {i : Instr} {s t : State} (h : Ends i s t) (htr : transcodes i = true)
    (hocap : s.ocap = 0) : t.status ≠ statusWord .ok := fun hok => by
  obtain ⟨hroom, -⟩ := h.output_frame htr hok
  simp [hocap] at hroom

theorem lengthBad_zero {i : Instr} (h : i = .declen ∨ i = .decblk ∨ i = .encblk) (maxLen : Nat) :
    lengthBad i 0 maxLen := by
  obtain rfl | rfl | rfl := h
  all_goals simp [lengthBad]

/-- Settles O29: the reset, the transcoding commands by their codes once `OK` is ruled out, and the commands on the
length 0. -/
theorem commandsAfterResetBeforeCapacity : Obligations.CommandsAfterResetBeforeCapacity := by
  refine ⟨fun s rest hp => ?_, fun i s hocap htr => ?_, fun s hlen => ⟨?_, fun i hi => ?_⟩⟩
  · exact ⟨_, resetClearsTheSixRegistersOnly s rest hp, rfl, rfl, doneField_zero⟩
  · obtain ⟨t, ht, hends⟩ := exec_ends i s
    have hne := hends.status_ne_ok_of_no_capacity htr hocap
    obtain ⟨-, hcode, -⟩ := errorWritesStatusResultEposOnly i s t ht hne
    exact ⟨t, ht, hends.obuf_unchanged (.inr hne), by tauto⟩
  · have hle : s.len.toNat ≤ s.params.maxLen := by simp [hlen]
    have hzero : enclen s.len.toNat = 0 := by simp [hlen, enclen]
    rw [exec_enclen_of_le hle, hzero]
    rfl
  · have hbad : lengthBad i s.len.toNat s.params.maxLen := by
      rw [hlen]
      exact lengthBad_zero hi _
    exact exec_of_lengthBad hbad

end Sys2Proof.Machine
end
